-- ==== Sys2Proof/Word.lean ====
section
/-! DEFINITION. The machine word of `spec/00_scope.md` R9 and R12: a signed integer of 64 bits. -/

namespace Sys2Proof

/-- `Word` (R12): the content of one memory cell, of an input, an output, `rb` and the carried signal.
It is one value, never a row of bytes (R59); it is read as the signed integer `w.toInt`, and every
computation is made on that integer and range-checked (log 2). -/
abbrev Word := BitVec 64

/-- The least `Word`, −2^63 (R9). -/
def wordMin : Int := -9223372036854775808

/-- The greatest `Word`, 2^63 − 1 (R9). -/
def wordMax : Int := 9223372036854775807

/-- `v ∈ Word` (R12). -/
abbrev InRange (v : Int) : Prop := wordMin ≤ v ∧ v ≤ wordMax

end Sys2Proof
end

