-- ==== Sys2Proof/Syntax.lean ====
section
/-! DEFINITION. The instruction set of `spec/30_encoding.md` R88: ten instructions and the illegal space.
An instruction is what the opcode word alone says (R80, R94): the opcode and the mode digits of the
parameters it has. Parameter words are not part of it: they are fetched from memory while the instruction
executes (R30, R110), so that a store is seen by the next fetch (R65). -/

namespace Sys2Proof

/-- One decimal digit of an opcode word (R10). Digits 3 to 9 in a mode place are kept as they stand: whether
a digit is a mode is checked only when the parameter is resolved (R91). -/
abbrev Digit := Fin 10

/-- The three addressing modes (R84). -/
inductive Mode where
  | position
  | immediate
  | relative
  deriving DecidableEq, Repr

/-- A parameter is read for its value or names the cell to write (R119). -/
inductive Role where
  | read
  | write
  deriving DecidableEq, Repr

/-- The opcode map (R88), one constructor per row of `spec/opcode_table.json`. `m0`, `m1`, `m2` are the mode
digits of parameters 0, 1, 2 (R81). -/
inductive Instr where
  /-- ADD, opcode 1 (R130). -/
  | add (m0 m1 m2 : Digit)
  /-- MUL, opcode 2 (R131). -/
  | mul (m0 m1 m2 : Digit)
  /-- IN, opcode 3 (R140). -/
  | input (m0 : Digit)
  /-- OUT, opcode 4 (R141). -/
  | output (m0 : Digit)
  /-- JT, opcode 5 (R150). -/
  | jt (m0 m1 : Digit)
  /-- JF, opcode 6 (R151). -/
  | jf (m0 m1 : Digit)
  /-- LT, opcode 7 (R160). -/
  | lt (m0 m1 m2 : Digit)
  /-- EQ, opcode 8 (R161). -/
  | eq (m0 m1 m2 : Digit)
  /-- ARB, opcode 9 (R170). -/
  | arb (m0 : Digit)
  /-- HALT, opcode 99 (R175). -/
  | halt
  /-- ILLEGAL, the pseudo-row for every word that is no instruction; `opcode` is the value its fault
  records: `w mod 100` for `w ≥ 0` (R89), `w rem 100` for `w < 0` (R90). -/
  | illegal (opcode : Int)
  deriving DecidableEq, Repr

/-- The opcode value of an instruction (R88): what a fault of it records (R257). -/
def Instr.opcode : Instr → Int
  | .add _ _ _ => 1
  | .mul _ _ _ => 2
  | .input _ => 3
  | .output _ => 4
  | .jt _ _ => 5
  | .jf _ _ => 6
  | .lt _ _ _ => 7
  | .eq _ _ _ => 8
  | .arb _ => 9
  | .halt => 99
  | .illegal op => op

/-- The roles of an instruction's parameters, in index order (R87, R119). -/
def Instr.roles : Instr → List Role
  | .add _ _ _ => [.read, .read, .write]
  | .mul _ _ _ => [.read, .read, .write]
  | .input _ => [.write]
  | .output _ => [.read]
  | .jt _ _ => [.read, .read]
  | .jf _ _ => [.read, .read]
  | .lt _ _ _ => [.read, .read, .write]
  | .eq _ _ _ => [.read, .read, .write]
  | .arb _ => [.read]
  | .halt => []
  | .illegal _ => []

/-- The mode digits an instruction carries, in index order. -/
def Instr.digits : Instr → List Digit
  | .add m0 m1 m2 => [m0, m1, m2]
  | .mul m0 m1 m2 => [m0, m1, m2]
  | .input m0 => [m0]
  | .output m0 => [m0]
  | .jt m0 m1 => [m0, m1]
  | .jf m0 m1 => [m0, m1]
  | .lt m0 m1 m2 => [m0, m1, m2]
  | .eq m0 m1 m2 => [m0, m1, m2]
  | .arb m0 => [m0]
  | .halt => []
  | .illegal _ => []

/-- The number of parameters (R87). -/
def Instr.arity (i : Instr) : Nat := i.roles.length

/-- The instruction's length in words (R80); the illegal space has none. -/
def Instr.length : Instr → Nat
  | .illegal _ => 0
  | i => i.arity + 1

/-- Whether the word is an instruction at all (R88, R89). -/
def Instr.isIllegal : Instr → Bool
  | .illegal _ => true
  | _ => false

end Sys2Proof
end

