-- ==== Sys2Proof/WellFormed.lean ====
section
/-! DEFINITION. Which instructions are well formed: those of the canonical encodings of
`spec/30_encoding.md` R85, and the opcode values an illegal word can have (R89, R90). -/

namespace Sys2Proof

/-- A digit that is a mode for a read parameter (R84, R85). -/
def Digit.readMode (d : Digit) : Bool := d = 0 || d = 1 || d = 2

/-- A digit that is a mode for a write parameter: immediate is not (R85, R92). -/
def Digit.writeMode (d : Digit) : Bool := d = 0 || d = 2

/-- The opcode values of the illegal space (R89: 0 and 10 to 98; R90: −99 to 0). -/
def illegalOpcode (op : Int) : Bool := (-99 ≤ op && op ≤ 0) || (10 ≤ op && op ≤ 98)

/-- The formats of R85: every mode digit legal for its parameter's role. -/
def Instr.wellFormed : Instr → Bool
  | .add m0 m1 m2 => Digit.readMode m0 && Digit.readMode m1 && Digit.writeMode m2
  | .mul m0 m1 m2 => Digit.readMode m0 && Digit.readMode m1 && Digit.writeMode m2
  | .input m0 => Digit.writeMode m0
  | .output m0 => Digit.readMode m0
  | .jt m0 m1 => Digit.readMode m0 && Digit.readMode m1
  | .jf m0 m1 => Digit.readMode m0 && Digit.readMode m1
  | .lt m0 m1 m2 => Digit.readMode m0 && Digit.readMode m1 && Digit.writeMode m2
  | .eq m0 m1 m2 => Digit.readMode m0 && Digit.readMode m1 && Digit.writeMode m2
  | .arb m0 => Digit.readMode m0
  | .halt => true
  | .illegal op => illegalOpcode op

/-- What some opcode word encodes: every mode digit may stand, legal or not (R91); only the opcode value of
an illegal word is bounded. Every well-formed instruction is encodable. -/
def Instr.encodable : Instr → Bool
  | .illegal op => illegalOpcode op
  | _ => true

end Sys2Proof
end

