-- ==== Sys2Proof/Decode.lean ====
section
/-! DEFINITION. Decoding and encoding of opcode words, `spec/30_encoding.md` R80 to R98. The encoding is
decimal (R10): fields are digits of a base-ten numeral, not bits. -/

namespace Sys2Proof

/-- `w mod 100` for `w ≥ 0` (R82). -/
def opcodeField (w : Word) : Nat := w.toInt.toNat % 100

/-- `mode(w, i) = (w div (100 × 10^i)) mod 10` for `w ≥ 0` (R83). -/
def modeDigit (w : Word) (i : Nat) : Digit := Fin.ofNat 10 (w.toInt.toNat / (100 * 10 ^ i))

/-- `Decode(w)`, total on every `Word` (R94). A negative word is illegal with the truncated remainder as its
opcode value (R90); so is every opcode other than 1 to 9 and 99 (R89). Only the digits of parameters the
instruction has are looked at (R91). -/
def decode (w : Word) : Instr :=
  if w.toInt < 0 then .illegal (w.toInt.tmod 100)
  else
    match opcodeField w with
    | 1 => .add (modeDigit w 0) (modeDigit w 1) (modeDigit w 2)
    | 2 => .mul (modeDigit w 0) (modeDigit w 1) (modeDigit w 2)
    | 3 => .input (modeDigit w 0)
    | 4 => .output (modeDigit w 0)
    | 5 => .jt (modeDigit w 0) (modeDigit w 1)
    | 6 => .jf (modeDigit w 0) (modeDigit w 1)
    | 7 => .lt (modeDigit w 0) (modeDigit w 1) (modeDigit w 2)
    | 8 => .eq (modeDigit w 0) (modeDigit w 1) (modeDigit w 2)
    | 9 => .arb (modeDigit w 0)
    | 99 => .halt
    | op => .illegal op

/-- The opcode word of format F1R or F1W (R85). -/
def encode1 (op : Nat) (m0 : Digit) : Word := BitVec.ofNat 64 (op + 100 * m0.val)

/-- The opcode word of format F2R (R85). -/
def encode2 (op : Nat) (m0 m1 : Digit) : Word := BitVec.ofNat 64 (op + 100 * m0.val + 1000 * m1.val)

/-- The opcode word of format F3W (R85). -/
def encode3 (op : Nat) (m0 m1 m2 : Digit) : Word :=
  BitVec.ofNat 64 (op + 100 * m0.val + 1000 * m1.val + 10000 * m2.val)

/-- The opcode word of an instruction, with every unexamined digit 0 (R85). For the illegal space, the
opcode value itself as a word. -/
def encode : Instr → Word
  | .add m0 m1 m2 => encode3 1 m0 m1 m2
  | .mul m0 m1 m2 => encode3 2 m0 m1 m2
  | .input m0 => encode1 3 m0
  | .output m0 => encode1 4 m0
  | .jt m0 m1 => encode2 5 m0 m1
  | .jf m0 m1 => encode2 6 m0 m1
  | .lt m0 m1 m2 => encode3 7 m0 m1 m2
  | .eq m0 m1 m2 => encode3 8 m0 m1 m2
  | .arb m0 => encode1 9 m0
  | .halt => 99
  | .illegal op => BitVec.ofInt 64 op

/-- Assembly (R98): the opcode word followed by the parameter words. -/
def assemble (i : Instr) (params : List Word) : List Word := encode i :: params

/-- The words of an instruction as the opcode table numbers its bits: word `k` is bits `64k` to `64k + 63`. -/
def tableWord (nbits w k : Nat) : Word := BitVec.ofNat 64 (w % 2 ^ nbits / 2 ^ (64 * k))

/-- The four words an instruction at most occupies (R80, R87), lowest address first. -/
def tableWords (nbits w : Nat) : List Word :=
  [tableWord nbits w 0, tableWord nbits w 1, tableWord nbits w 2, tableWord nbits w 3]

/-- The instruction the decoder reads from those words. The opcode word alone decides (R80); `decode` never
refuses, an illegal word being the instruction `illegal` (R94). -/
def decodeTableWord (nbits w : Nat) : Option Instr := some (decode (tableWord nbits w 0))

end Sys2Proof
end

