-- ==== Sys2Proof/Config.lean ====
section
/-! DEFINITION. The parameters of the block, `spec/00_scope.md` R9. `N`, `MODE`, the image and the phase
settings are arguments of the host's construction calls; `MEM_CAP` is the one field of `Config`.
The spec leaves no value undefined, so there is no free value here. -/

namespace Sys2Proof

/-- `AMAX` (R9): the highest address and the highest value of `pc`, 2^63 − 1. -/
def amax : Nat := 9223372036854775807

/-- `signal0` (R9): the first value of the carried signal. -/
def signal0 : Word := 0

/-- What one implementation fixes. -/
structure Config where
  /-- `MEM_CAP` (R9, R57): the highest address the implementation can back with storage. OPEN; its
  normative value is `amax`. -/
  memCap : Nat
  deriving DecidableEq, Repr

/-- The normative configuration, for which the rules of the spec are stated (R57). -/
def Config.normative : Config := ⟨amax⟩

end Sys2Proof
end

