-- ==== Sys2Proof/Machine/State.lean ====
section
/-! DEFINITION. The state of the machine as plain data: the Computers of a ring (`spec/10_state.md` R20 to
R34), the Amplifier Network they may belong to (R35), which agent acts next, and what the host asks and is
answered (`50_computer_run.md` R184 to R194). One `State` is one session of the block: a standalone Computer,
which is a ring of one with no network, or one Amplifier Network (log 3). -/

namespace Sys2Proof.Machine

/-! ### Faults of the architecture -/

/-- The five fault names (`60_exceptions.md` R250). The name is the code. -/
inductive FaultKind where
  /-- Raised at decode (R251). -/
  | invalidOpcode
  /-- Raised when a parameter with a digit 3 to 9 is resolved (R252). -/
  | invalidMode
  /-- Raised when a write parameter has digit 1 (R253). -/
  | invalidWriteMode
  /-- Raised by an effective address or a taken jump's target below 0 (R254). -/
  | negativeAddress
  /-- Raised by a result, an address or a `pc` outside its range (R255). -/
  | overflow
  deriving DecidableEq, Repr

/-- The extra value of a fault record (the table of R250, R257). -/
inductive FaultInfo where
  /-- `InvalidOpcode` records the opcode and the `pc` only. -/
  | none
  /-- `InvalidMode`: the parameter index and the digit. -/
  | digit (param : Nat) (d : Digit)
  /-- `InvalidWriteMode`: the parameter index. -/
  | param (i : Nat)
  /-- `NegativeAddress`, `Overflow`: the address or the out-of-range value. -/
  | value (v : Int)
  deriving DecidableEq, Repr

/-- What a check that fails says, before the instruction's own `pc` and opcode are added. -/
structure Trap where
  kind : FaultKind
  info : FaultInfo
  deriving DecidableEq, Repr

/-- The fault record (`10_state.md` R25, `60_exceptions.md` R257). -/
structure FaultRecord where
  kind : FaultKind
  /-- The address of the faulting instruction's opcode word. -/
  pc : Nat
  /-- The opcode value of that word. -/
  opcode : Int
  info : FaultInfo
  deriving DecidableEq, Repr

/-! ### One Computer -/

/-- Memory (R26, R50 to R54) as a list of cells, each an address and its word, in one canonical form:
addresses strictly rising and no cell holding 0. An address with no cell reads 0 (R52). The spec's cell is
an indivisible word (R59), so the entries are words, not bytes (log 1). -/
abbrev Memory := List (Nat × Word)

/-- All the state of one Computer (R21 to R29). -/
structure Computer where
  /-- Program counter (R22). -/
  pc : Nat
  /-- Relative base (R23). -/
  rb : Word
  /-- Halted flag (R24). -/
  halted : Bool
  /-- Fault record (R25). -/
  fault : Option FaultRecord
  /-- Memory (R26). -/
  mem : Memory
  /-- Storage size `mem_size` (R27). -/
  memSize : Nat
  /-- Pending-input queue, oldest value first (R28). -/
  inq : List Word
  /-- Output log, oldest value first (R29). -/
  outLog : List Word
  deriving DecidableEq, Repr

/-! ### Calls, the network, the host -/

/-- What a `run` call returns (`50_computer_run.md` R185). -/
inductive RunResult where
  | suspended (outs : List Word)
  | halted (outs : List Word)
  | fault (f : FaultRecord)
  deriving DecidableEq, Repr

/-- Which agent acts next (R20): control passes to a Computer at the start of a `run` call and back to the
caller at its end, never in between (log 5). -/
inductive Control where
  /-- No `run` call is in progress: the scheduler of a running network, or else the host, acts. -/
  | caller
  /-- A `run` call is in progress: the Computer at the cursor executes its next instruction. -/
  | quantum
  /-- The `run` call has ended with `r`, which the caller takes next. -/
  | returned (r : RunResult)
  deriving DecidableEq, Repr

/-- The operating modes of a network (`55_amplifier_network.md` R211). -/
inductive NetMode where
  | pipeline
  | feedback
  deriving DecidableEq, Repr

/-- The status `net` of a network (R35). -/
inductive NetStatus where
  | running
  | done (result : Word)
  | aborted (k : Nat) (f : FaultRecord)
  deriving DecidableEq, Repr

/-- The state of an Amplifier Network besides its ring and cursor (R35). -/
structure Network where
  /-- `MODE`. -/
  mode : NetMode
  /-- `phase[0..N−1]`. -/
  phase : List Word
  /-- The carried signal (R216). -/
  carried : Word
  /-- `net`. -/
  status : NetStatus
  deriving DecidableEq, Repr

/-- What the host can ask (`50_computer_run.md` R184, R185, R192, R193; `55_amplifier_network.md` R210). -/
inductive HostCall where
  /-- `new(image)`: a fresh Computer; the session before it ends (R33, log 3). -/
  | new (image : List Word)
  /-- Build a network of as many Computers as there are phase settings, and start it. -/
  | network (image phases : List Word) (mode : NetMode)
  /-- `run(new_inputs)` on the standalone Computer. -/
  | run (inputs : List Word)
  /-- `is_halted()` of the Computer at ring position `k` (0 for a standalone one). -/
  | isHalted (k : Nat)
  /-- `snapshot_memory()` of the Computer at ring position `k`. -/
  | snapshot (k : Nat)
  deriving DecidableEq, Repr

/-- What the host is answered. -/
inductive HostReply where
  /-- A Computer or a network has been constructed. -/
  | created
  /-- The result of a `run` call (R185). -/
  | ran (r : RunResult)
  /-- The halted flag (R192). -/
  | isHalted (b : Bool)
  /-- The memory contents (R193). -/
  | memory (cells : List Word)
  /-- A network has ended (R228). -/
  | network (status : NetStatus)
  deriving DecidableEq, Repr

/-! ### The machine -/

/-- The whole machine. The ring `comp[0..N−1]` of R35 is `before ++ comp :: after`, cut at the cursor, so
that the cursor is the length of `before` and always less than `N` (log 4). -/
structure State where
  /-- What the implementation fixes (R9); no step changes it. -/
  cfg : Config
  /-- `comp[0..cursor−1]`. -/
  before : List Computer
  /-- `comp[cursor]`: the Computer invoked now or next. -/
  comp : Computer
  /-- `comp[cursor+1..N−1]`. -/
  after : List Computer
  /-- The network the ring belongs to; none for a standalone Computer. -/
  net : Option Network
  /-- Which agent acts next. The model's own field (log 5). -/
  control : Control
  /-- `k = len(out_log)` at the start of the `run` call in progress (R185). The model's own field (log 5). -/
  callStart : Nat
  /-- The calls the host is going to make, in order. The model's own field (log 6). -/
  calls : List HostCall
  /-- What the host has been answered, in order. The model's own field (log 6). -/
  replies : List HostReply
  deriving DecidableEq, Repr

/-- The reasons a step of the MODEL stops. None is a fault of the architecture: those are recorded in
`Computer.fault` and are next states (R259). -/
inductive Fault where
  /-- An instruction's store, or the loading of an image, at an address above `MEM_CAP`: a failure of an
  implementation, "a fault that refutes any claim" (R57, U7). Raised by `store` and by the host calls
  `new` and `network`. Safe. Cannot happen at the normative `MEM_CAP = AMAX`. -/
  | memCapacity (a : Nat)
  /-- The pipeline scheduler at ring position `k` has no step: the Computer did not halt with exactly one
  output (R213, U8). Raised by `endTurn`; by `startTurn` too where position `k` has no phase setting,
  which the invariant rules out. Safe. -/
  | pipelineStuck (k : Nat)
  deriving DecidableEq, Repr

/-- The reasons the model does not accept something. -/
inductive Refusal where
  /-- An instruction with no meaning yet. Raised by `exec` alone, and by no arm of it now. Safe. -/
  | notModelled (mnemonic : String)
  /-- The host asks for a ring of size 0, "refuse at construction" (U15, D19). Raised by `hostCall`. Safe. -/
  | emptyRing
  /-- The host's image is longer than `AMAX + 1` words, no legal argument (R58, R184). Raised by
  `hostCall`. Safe. -/
  | imageTooLong
  /-- The host calls `run` on a Computer that belongs to a network, which only its scheduler may invoke
  (R194). Raised by `hostCall`. Safe. -/
  | memberOfNetwork
  /-- The host names a ring position that does not exist. Raised by `hostCall`. Safe. -/
  | noSuchComputer (k : Nat)
  deriving DecidableEq, Repr

/-- The machine right after reset. Reset is construction (R290): a Computer in the state of R38, built from
the empty image, since the image is the host's and none is given (D34, log 7). Control is with the host,
which has asked nothing yet. -/
def State.reset : State where
  cfg := Config.normative
  before := []
  comp :=
    { pc := 0, rb := 0, halted := false, fault := none, mem := [], memSize := 0, inq := [], outLog := [] }
  after := []
  net := none
  control := .caller
  callStart := 0
  calls := []
  replies := []

end Sys2Proof.Machine
end

