-- ==== Sys2Proof/Machine/Ops.lean ====
section
/-! DEFINITION. The named operations over memory and registers: `spec/20_memory.md` R50 to R58, `NextPc` of
`10_state.md` R22, the end of a `run` call (`42_io.md` R142, `46_halt.md` R175), taking a fault
(`60_exceptions.md` R257 to R261) and the one commit of a storing instruction (R183). -/

namespace Sys2Proof.Machine

/-! ### Memory -/

/-- The word at an address; an address with no cell holds 0 (R52). -/
def Memory.read : Memory → Nat → Word
  | [], _ => 0
  | (k, v) :: m, a => if a = k then v else Memory.read m a

/-- The memory with no cell at `a`. -/
def Memory.erase (m : Memory) (a : Nat) : Memory := m.filter fun c => c.1 != a

/-- A cell put in its place among rising addresses. -/
def Memory.insert : Memory → Nat → Word → Memory
  | [], a, v => [(a, v)]
  | c :: m, a, v => if a < c.1 then (a, v) :: c :: m else c :: Memory.insert m a v

/-- The memory with `v` at `a`, in canonical form again: a cell that would hold 0 is not listed. -/
def Memory.write (m : Memory) (a : Nat) (v : Word) : Memory :=
  if v = 0 then Memory.erase m a else Memory.insert (Memory.erase m a) a v

/-- The canonical form: addresses strictly rising, no cell holding 0. -/
def Memory.wf : Memory → Bool
  | [] => true
  | [c] => c.2 != 0
  | c :: d :: m => c.2 != 0 && decide (c.1 < d.1) && Memory.wf (d :: m)

/-- Every cell lies below `n`: the invariant of R27 for `mem_size`. -/
def Memory.below (m : Memory) (n : Nat) : Bool := m.all fun c => decide (c.1 < n)

/-- The words of an image at addresses `k`, `k+1`, … (R58). -/
def Memory.ofImageAt : Nat → List Word → Memory
  | _, [] => []
  | k, v :: vs => if v = 0 then Memory.ofImageAt (k + 1) vs else (k, v) :: Memory.ofImageAt (k + 1) vs

/-- An image at addresses 0 to its length − 1 (R58). -/
def Memory.ofImage (image : List Word) : Memory := Memory.ofImageAt 0 image

/-- The words at `a`, `a+1`, … replaced by `ws`. -/
def Memory.writeList (m : Memory) (a : Nat) : List Word → Memory
  | [] => m
  | v :: vs => Memory.writeList (Memory.write m a v) (a + 1) vs

/-- An effective address checked: below 0 is `NegativeAddress` (R55), above `AMAX` is `Overflow` (R56). -/
def checkAddr (ea : Int) : Except Trap Nat :=
  if ea < 0 then .error ⟨.negativeAddress, .value ea⟩
  else if (amax : Int) < ea then .error ⟨.overflow, .value ea⟩
  else .ok ea.toNat

/-- `MemRead(a, 1)` (R52). It changes nothing. Beyond `mem_size` every cell reads 0 because none is listed
there (R27), so the two return arms of R52 are one (log 12). -/
def memRead (c : Computer) (a : Int) : Except Trap Word :=
  match checkAddr a with
  | .error t => .error t
  | .ok n => .ok (Memory.read c.mem n)

/-- `MemWrite(a, 1, v)` at a checked address (R53): storage grows to `a + 1` cells if it was smaller, also
when the value is 0. -/
def memWrite (c : Computer) (a : Nat) (v : Word) : Computer :=
  { c with mem := Memory.write c.mem a v, memSize := max c.memSize (a + 1) }

/-- The opcode word at `pc` (R181). `pc` is always a legal address, so the fetch raises nothing. -/
def fetch (c : Computer) : Word := Memory.read c.mem c.pc

/-! ### Program counter -/

/-- `NextPc(k)` (R22): never wraps. -/
def nextPc (c : Computer) (k : Nat) : Except Trap Nat :=
  if c.pc + k ≤ amax then .ok (c.pc + k) else .error ⟨.overflow, .value ((c.pc + k : Nat) : Int)⟩

/-! ### The end of a `run` call -/

/-- The values emitted during the `run` call in progress: the suffix of `out_log` it added (R188). -/
def callOuts (s : State) : List Word := s.comp.outLog.drop s.callStart

/-- The `run` call in progress ends with `r` (R185). No item of the Computer changes. -/
def endCall (r : RunResult) (s : State) : State := { s with control := .returned r }

/-- `suspend` (R142): the call ends, the Computer is exactly as it was. -/
def suspend (s : State) : State := endCall (.suspended (callOuts s)) s

/-- A Computer that executes nothing more, with what `run` returns for it: the recorded fault (R187), or no
output when it has halted (R186). -/
def finished (c : Computer) : Option RunResult :=
  match c.fault with
  | some f => some (.fault f)
  | none => if c.halted then some (.halted []) else none

/-! ### Taking a fault

There is no handler, no vector and no return from a fault (R259, R261): entry is the whole of it. -/

/-- The record of a fault raised by an instruction with opcode value `op` (R257). -/
def faultRecord (op : Int) (t : Trap) (s : State) : FaultRecord := ⟨t.kind, s.comp.pc, op, t.info⟩

/-- The state after a fault (R183, R259): the instruction has changed nothing, `fault` holds the record, and
the `run` call in progress returns it. -/
def raised (op : Int) (t : Trap) (s : State) : State :=
  endCall (.fault (faultRecord op t s)) { s with comp := { s.comp with fault := some (faultRecord op t s) } }

/-- `raise <Fault>(info)` (R13, R259): the one way an instruction takes a fault. -/
def raise (op : Int) (t : Trap) (s : State) : Host.Outcome State Fault Refusal := .next (raised op t s)

/-- Go on with the value of a check, or take the fault it raises (R13: `raise` ends a block at once). -/
def orRaise {α : Type} (op : Int) (s : State) (r : Except Trap α)
    (k : α → Host.Outcome State Fault Refusal) : Host.Outcome State Fault Refusal :=
  match r with
  | .error t => raise op t s
  | .ok a => k a

/-! ### Commits -/

/-- `MemWrite(t, 1, v); pc <- n`, the end of every storing instruction, after all its checks (R183). A store
above `MEM_CAP` is a failure of the implementation (R57, log 8). -/
def store (t : Nat) (v : Word) (n : Nat) (s : State) : Host.Outcome State Fault Refusal :=
  if s.cfg.memCap < t then .fault (.memCapacity t)
  else .next { s with comp := { memWrite s.comp t v with pc := n } }

/-- `pc <- n` alone. -/
def setPc (n : Nat) (s : State) : Host.Outcome State Fault Refusal :=
  .next { s with comp := { s.comp with pc := n } }

end Sys2Proof.Machine
end

