-- ==== Sys2Proof/Machine/Session.lean ====
section
/-! DEFINITION. The operations of a Computer, `spec/50_computer_run.md` R184 to R196: `new`, `run`,
`is_halted`, `snapshot_memory`, and the condition of a Computer between calls (`10_state.md` R31). -/

namespace Sys2Proof.Machine

/-- `new(initial_memory)` (R184, R38): the reset state with a copy of the image. -/
def newComputer (image : List Word) : Computer where
  pc := 0
  rb := 0
  halted := false
  fault := none
  mem := Memory.ofImage image
  memSize := image.length
  inq := []
  outLog := []

/-- A session of one standalone Computer, fresh from `new(image)`. The host's own fields stay. -/
def newSession (image : List Word) (s : State) : State :=
  { s with before := [], comp := newComputer image, after := [], net := none, control := .caller, callStart := 0 }

/-- The start of `run(new_inputs)` on the Computer at the cursor (R185): a faulted one returns its fault
(R187) and a halted one no output (R186), with no change and the inputs dropped; any other gets the inputs
at the tail of its queue and begins a quantum. -/
def startRun (inputs : List Word) (s : State) : State :=
  match finished s.comp with
  | some r => endCall r s
  | none =>
    { s with
      comp := { s.comp with inq := s.comp.inq ++ inputs }
      control := .quantum
      callStart := s.comp.outLog.length }

/-- `snapshot_memory()` (R193): cells 0 to `mem_size − 1`. -/
def snapshot (c : Computer) : List Word := (List.range c.memSize).map fun a => Memory.read c.mem a

/-- The ring `comp[0..N−1]` in ring order (R35). -/
def ring (s : State) : List Computer := s.before ++ s.comp :: s.after

/-- The ring size `N` (R35). -/
def ringSize (s : State) : Nat := (ring s).length

/-- The cursor: the ring position of the Computer invoked now or next (R35). -/
def cursor (s : State) : Nat := s.before.length

/-- The answer of a call appended to what the host has been answered, control with the caller. -/
def answer (r : HostReply) (s : State) : State := { s with control := .caller, replies := s.replies ++ [r] }

/-- The four conditions of a Computer between calls (R31). -/
inductive Condition where
  | faulted
  | halted
  | starved
  | ready
  deriving DecidableEq, Repr

/-- An opcode word of IN: `w ≥ 0` and `w mod 100 = 3` (R31). -/
def isInputWord (w : Word) : Bool := decide (0 ≤ w.toInt) && opcodeField w == 3

/-- Which condition a Computer is in (R31). Computed, never stored. -/
def conditionOf (c : Computer) : Condition :=
  match c.fault with
  | some _ => .faulted
  | none =>
    if c.halted then .halted
    else if isInputWord (fetch c) && c.inq.isEmpty then .starved
    else .ready

end Sys2Proof.Machine
end

