-- ==== Sys2Proof/Machine/Scheduler.lean ====
section
/-! DEFINITION. The Amplifier Network, `spec/55_amplifier_network.md` R210 to R228: construction, the turn in
both modes, termination and abort. The scheduler reads only what `run` returns and the last Computer's
halted flag (R223). -/

namespace Sys2Proof.Machine

/-- A member of a fresh ring: every one from its own copy of the image (R210); in feedback mode primed with
its phase setting in the queue, nothing executed (R214, R39). -/
def newMember (image : List Word) (mode : NetMode) (phase : Word) : Computer :=
  match mode with
  | .pipeline => newComputer image
  | .feedback => { newComputer image with inq := [phase] }

/-- A network of as many Computers as there are phase settings, at its reset state (R39, R210); its scheduler
acts next. There is none of size 0 (D19), so the first phase setting stands apart. -/
def newNetwork (image : List Word) (phase : Word) (phases : List Word) (mode : NetMode) (s : State) : State :=
  { s with
    before := []
    comp := newMember image mode phase
    after := phases.map (newMember image mode)
    net := some { mode := mode, phase := phase :: phases, carried := signal0, status := .running }
    control := .caller
    callStart := 0 }

/-- The network if it is still scheduling. -/
def activeNet (s : State) : Option Network :=
  match s.net with
  | some net => if net.status = .running then some net else none
  | none => none

/-- `cursor <- (cursor + 1) mod N` (R215). Every Computer keeps its ring position. -/
def advance (s : State) : State :=
  match s.after with
  | c :: cs => { s with before := s.before ++ [s.comp], comp := c, after := cs }
  | [] =>
    match s.before with
    | [] => s
    | c :: cs => { s with before := [], comp := c, after := cs ++ [s.comp] }

/-- The network ends with a status, which the host that started it receives (R228). -/
def endNetwork (net : Network) (status : NetStatus) (s : State) : State :=
  answer (.network status) { s with net := some { net with status := status } }

/-- The scheduler's call in its turn: `run([carried])` in feedback mode, always (R215, R216);
`run([phase[cursor], carried])` in pipeline mode (R212). -/
def startTurn (net : Network) (s : State) : Host.Outcome State Fault Refusal :=
  match net.mode with
  | .feedback => .next (startRun [net.carried] s)
  | .pipeline =>
    match net.phase[cursor s]? with
    | some p => .next (startRun [p, net.carried] s)
    | none => .fault (.pipelineStuck (cursor s))

/-- The rest of a feedback turn whose quantum emitted `outs` (R215): the carried signal becomes the last value
emitted, if any (R216); after the last Computer's turn, if it has halted, the network is done with the
carried signal (R217, R218); else the cursor moves on. -/
def endFeedbackTurn (net : Network) (outs : List Word) (s : State) : State :=
  let carried := outs.getLast?.getD net.carried
  if s.after.isEmpty && s.comp.halted then endNetwork { net with carried := carried } (.done carried) s
  else advance { s with net := some { net with carried := carried }, control := .caller }

/-- The rest of a pipeline stage whose Computer halted with the sole output `v` (R212). -/
def endPipelineStage (net : Network) (v : Word) (s : State) : State :=
  if s.after.isEmpty then endNetwork { net with carried := v } (.done v) s
  else advance { s with net := some { net with carried := v }, control := .caller }

/-- What the scheduler does with the result of a `run` call. A fault aborts the network (R220). A pipeline
Computer that does not halt with exactly one output leaves the scheduler no step (R213). -/
def endTurn (net : Network) (r : RunResult) (s : State) : Host.Outcome State Fault Refusal :=
  match r with
  | .fault f => .next (endNetwork net (.aborted (cursor s) f) s)
  | .suspended outs =>
    match net.mode with
    | .feedback => .next (endFeedbackTurn net outs s)
    | .pipeline => .fault (.pipelineStuck (cursor s))
  | .halted outs =>
    match net.mode with
    | .feedback => .next (endFeedbackTurn net outs s)
    | .pipeline =>
      match outs with
      | [v] => .next (endPipelineStage net v s)
      | _ => .fault (.pipelineStuck (cursor s))

end Sys2Proof.Machine
end

