-- ==== Sys2Proof/Machine/Caller.lean ====
section
/-! DEFINITION. The callers of a Computer: the host, which makes the calls of `State.calls` in order
(`spec/50_computer_run.md` R184 to R194, `55_amplifier_network.md` R228), and the scheduler while a network
runs. -/

namespace Sys2Proof.Machine

/-- Whether an image is a legal argument of a construction, and can be backed with storage (R58, R57). -/
def withImage (image : List Word) (s : State) (built : State) : Host.Outcome State Fault Refusal :=
  if amax + 1 < image.length then .refused .imageTooLong
  else if s.cfg.memCap + 1 < image.length then .fault (.memCapacity (image.length - 1))
  else .next (answer .created built)

/-- One call of the host, already taken from `calls`. A construction ends the session before it (R33); a
network starts at once (R228); a Computer of a network is not the host's to run (R194). -/
def hostCall (c : HostCall) (s : State) : Host.Outcome State Fault Refusal :=
  match c with
  | .new image => withImage image s (newSession image s)
  | .network _ [] _ => .refused .emptyRing
  | .network image (p :: ps) mode => withImage image s (newNetwork image p ps mode s)
  | .run inputs =>
    match s.net with
    | none => .next (startRun inputs s)
    | some _ => .refused .memberOfNetwork
  | .isHalted k =>
    match (ring s)[k]? with
    | some comp => .next (answer (.isHalted comp.halted) s)
    | none => .refused (.noSuchComputer k)
  | .snapshot k =>
    match (ring s)[k]? with
    | some comp => .next (answer (.memory (snapshot comp)) s)
    | none => .refused (.noSuchComputer k)

/-- The host's next call. With none to make, nothing moves: the machine waits (R196, R270, log 6). -/
def hostStep (s : State) : Host.Outcome State Fault Refusal :=
  match s.calls with
  | [] => .next s
  | c :: rest => hostCall c { s with calls := rest }

/-- No `run` call is in progress: the scheduler of a running network acts, else the host. -/
def callerStep (s : State) : Host.Outcome State Fault Refusal :=
  match activeNet s with
  | some net => startTurn net s
  | none => hostStep s

/-- A `run` call has ended: its caller takes the result. -/
def takeResult (r : RunResult) (s : State) : Host.Outcome State Fault Refusal :=
  match activeNet s with
  | some net => endTurn net r s
  | none => .next (answer (.ran r) s)

/-- The words of the opcode table put where the Computer at the cursor fetches next, in a `run` call in
progress: it stands for `new` with an image that holds them and the start of `run` (log 7). -/
def loadAndRun (words : List Word) (s : State) : State :=
  { s with
    comp :=
      { s.comp with
        halted := false
        fault := none
        mem := Memory.writeList s.comp.mem s.comp.pc words
        memSize := max s.comp.memSize (s.comp.pc + words.length) }
    control := .quantum
    callStart := s.comp.outLog.length }

end Sys2Proof.Machine
end

