-- ==== Sys2Proof/Machine/Flags.lean ====
section
/-! DEFINITION. The machine has no condition codes (`spec/10_state.md` R24): what other machines keep in
flags is here a range check that raises `Overflow` (`41_arithmetic.md` R133) and a 0 or 1 written to memory
by the compare instructions (`44_compare.md` R160 to R162). -/

namespace Sys2Proof.Machine

/-- `InWord(v)` (R133): the exact result if it is a `Word`, else `Overflow`; never a wrapped value. -/
def inWord (v : Int) : Except Trap Word :=
  if InRange v then .ok (BitVec.ofInt 64 v) else .error ⟨.overflow, .value v⟩

/-- 1 for true, 0 for false (R162). -/
def truthWord (b : Bool) : Word := if b then 1 else 0

/-- `a < b` as signed integers (R160, R162). -/
def lessThan (a b : Word) : Word := truthWord (decide (a.toInt < b.toInt))

/-- `a = b` as whole words (R161). -/
def equalTo (a b : Word) : Word := truthWord (decide (a.toInt = b.toInt))

/-- What JT and JF test: any value but 0 is true (R150, R151). -/
def isNonZero (a : Word) : Bool := decide (a.toInt ≠ 0)

/-- The target of a taken jump: the operand whole, `NegativeAddress` if it is below 0 (R152). -/
def jumpTarget (b : Word) : Except Trap Nat :=
  if b.toInt < 0 then .error ⟨.negativeAddress, .value b.toInt⟩ else .ok b.toInt.toNat

end Sys2Proof.Machine
end

