-- ==== Sys2Proof/Machine/Operands.lean ====
section
/-! DEFINITION. Addressing modes and parameter resolution, `spec/40_operands.md` R110 to R123. Every
resolution is a pure function of the Computer: it changes no state (R114, R118, R121). -/

namespace Sys2Proof.Machine

/-- The mode a digit stands for; 3 to 9 are none (R84, R91). -/
def modeOf (d : Digit) : Option Mode :=
  match d.val with
  | 0 => some .position
  | 1 => some .immediate
  | 2 => some .relative
  | _ => none

/-- Parameter word `i`, the word at `pc + 1 + i` (R110). -/
def paramWord (c : Computer) (i : Nat) : Except Trap Word := memRead c ((c.pc + 1 + i : Nat) : Int)

/-- `ReadParam(i)` (R114) for mode digit `d`: the digit is checked, the parameter word fetched, the operand
read. Relative addresses are exact sums (R113). -/
def readParam (c : Computer) (i : Nat) (d : Digit) : Except Trap Word :=
  match modeOf d with
  | none => .error ⟨.invalidMode, .digit i d⟩
  | some m =>
    match paramWord c i with
    | .error t => .error t
    | .ok p =>
      match m with
      | .immediate => .ok p
      | .position => memRead c p.toInt
      | .relative => memRead c (c.rb.toInt + p.toInt)

/-- `WriteAddr(i)` (R118) for mode digit `d`: the digit is checked, immediate mode refused by
`InvalidWriteMode` (R117), the parameter word fetched, the target address checked. The target cell is not
read. -/
def writeAddr (c : Computer) (i : Nat) (d : Digit) : Except Trap Nat :=
  match modeOf d with
  | none => .error ⟨.invalidMode, .digit i d⟩
  | some .immediate => .error ⟨.invalidWriteMode, .param i⟩
  | some .position =>
    match paramWord c i with
    | .error t => .error t
    | .ok p => checkAddr p.toInt
  | some .relative =>
    match paramWord c i with
    | .error t => .error t
    | .ok p => checkAddr (c.rb.toInt + p.toInt)

/-- The operands of a two-operand jump, parameters 0 and 1 in this order (R120). -/
def readTwo (c : Computer) (m0 m1 : Digit) : Except Trap (Word × Word) :=
  match readParam c 0 m0 with
  | .error t => .error t
  | .ok a =>
    match readParam c 1 m1 with
    | .error t => .error t
    | .ok b => .ok (a, b)

/-- The operands and the target of a four-word instruction, parameters 0, 1, 2 in this order, each
completely before the next (R120). -/
def readTwoTarget (c : Computer) (m0 m1 m2 : Digit) : Except Trap (Word × Word × Nat) :=
  match readTwo c m0 m1 with
  | .error t => .error t
  | .ok (a, b) =>
    match writeAddr c 2 m2 with
    | .error t => .error t
    | .ok t => .ok (a, b, t)

end Sys2Proof.Machine
end

