-- ==== Sys2Proof/Machine/Arith.lean ====
section
/-! DEFINITION. The four-word shape of ADD, MUL, LT and EQ, and the arithmetic instructions,
`spec/41_arithmetic.md` R130 to R135. -/

namespace Sys2Proof.Machine

/-- `a = ReadParam(0); b = ReadParam(1); t = WriteAddr(2); v = f(a, b); n = NextPc(4); MemWrite(t, 1, v);
pc <- n`: the pseudocode ADD, MUL, LT and EQ share (R130, R131, R160, R161). `op` is the opcode value a fault
records. -/
def binary (op : Int) (m0 m1 m2 : Digit) (f : Word → Word → Except Trap Word) (s : State) :
    Host.Outcome State Fault Refusal :=
  orRaise op s (readTwoTarget s.comp m0 m1 m2) fun r =>
  orRaise op s (f r.1 r.2.1) fun v =>
  orRaise op s (nextPc s.comp 4) fun n =>
  store r.2.2 v n s

/-- `v = InWord(a + b)` (R130). -/
def sum (a b : Word) : Except Trap Word := inWord (a.toInt + b.toInt)

/-- `v = InWord(a × b)` (R131). -/
def product (a b : Word) : Except Trap Word := inWord (a.toInt * b.toInt)

/-- ADD (R130). -/
def execAdd (m0 m1 m2 : Digit) (s : State) : Host.Outcome State Fault Refusal :=
  binary (Instr.add m0 m1 m2).opcode m0 m1 m2 sum s

/-- MUL (R131). -/
def execMul (m0 m1 m2 : Digit) (s : State) : Host.Outcome State Fault Refusal :=
  binary (Instr.mul m0 m1 m2).opcode m0 m1 m2 product s

end Sys2Proof.Machine
end

