-- ==== Sys2Proof/Machine/Compare.lean ====
section
/-! DEFINITION. The compare instructions, `spec/44_compare.md` R160 to R162. -/

namespace Sys2Proof.Machine

/-- LT (R160): 1 if `a < b` as signed integers, else 0. The result cannot overflow. -/
def execLt (m0 m1 m2 : Digit) (s : State) : Host.Outcome State Fault Refusal :=
  binary (Instr.lt m0 m1 m2).opcode m0 m1 m2 (fun a b => .ok (lessThan a b)) s

/-- EQ (R161): 1 if `a = b`, else 0. -/
def execEq (m0 m1 m2 : Digit) (s : State) : Host.Outcome State Fault Refusal :=
  binary (Instr.eq m0 m1 m2).opcode m0 m1 m2 (fun a b => .ok (equalTo a b)) s

end Sys2Proof.Machine
end

