-- ==== Sys2Proof/Machine/Halt.lean ====
section
/-! DEFINITION. HALT, `spec/46_halt.md` R175 to R177, and the illegal space, `60_exceptions.md` R251. -/

namespace Sys2Proof.Machine

/-- HALT (R175): `halted` is set, `pc` stays, and the `run` call in progress ends with the values emitted
during it. -/
def execHalt (s : State) : Host.Outcome State Fault Refusal :=
  .next (endCall (.halted (callOuts s)) { s with comp := { s.comp with halted := true } })

/-- ILLEGAL (R89, R90, R251): `raise InvalidOpcode(opcode, pc)`, before any parameter is touched. -/
def execIllegal (opcode : Int) (s : State) : Host.Outcome State Fault Refusal :=
  raise opcode ⟨.invalidOpcode, .none⟩ s

end Sys2Proof.Machine
end

