-- ==== Sys2Proof/Machine/Io.lean ====
section
/-! DEFINITION. Input, output and suspension, `spec/42_io.md` R140 to R145. -/

namespace Sys2Proof.Machine

/-- IN (R140). The queue is tested first: empty, the `run` call is suspended and nothing changes, no mode
digit being looked at (R142). Else the target and the next `pc` are checked, the oldest value is removed
from the queue and stored; on a fault it stays queued. -/
def execInput (m0 : Digit) (s : State) : Host.Outcome State Fault Refusal :=
  match s.comp.inq with
  | [] => .next (suspend s)
  | v :: rest =>
    orRaise (Instr.input m0).opcode s (writeAddr s.comp 0 m0) fun t =>
    orRaise (Instr.input m0).opcode s (nextPc s.comp 2) fun n =>
    store t v n { s with comp := { s.comp with inq := rest } }

/-- OUT (R141): the value is appended to `out_log`, whole. -/
def execOutput (m0 : Digit) (s : State) : Host.Outcome State Fault Refusal :=
  orRaise (Instr.output m0).opcode s (readParam s.comp 0 m0) fun a =>
  orRaise (Instr.output m0).opcode s (nextPc s.comp 2) fun n =>
  setPc n { s with comp := { s.comp with outLog := s.comp.outLog ++ [a] } }

end Sys2Proof.Machine
end

