-- ==== Sys2Proof/Machine/Jump.lean ====
section
/-! DEFINITION. Control transfer, `spec/43_jumps.md` R150 to R154. -/

namespace Sys2Proof.Machine

/-- The pseudocode JT and JF share (R150, R151): both parameters are resolved whether or not the jump is
taken (R153); `taken` tests the first. -/
def jump (op : Int) (m0 m1 : Digit) (taken : Word → Bool) (s : State) : Host.Outcome State Fault Refusal :=
  orRaise op s (readTwo s.comp m0 m1) fun r =>
  if taken r.1 then orRaise op s (jumpTarget r.2) fun n => setPc n s
  else orRaise op s (nextPc s.comp 3) fun n => setPc n s

/-- JT (R150): jumps if `a ≠ 0`. -/
def execJt (m0 m1 : Digit) (s : State) : Host.Outcome State Fault Refusal :=
  jump (Instr.jt m0 m1).opcode m0 m1 isNonZero s

/-- JF (R151): jumps if `a = 0`. -/
def execJf (m0 m1 : Digit) (s : State) : Host.Outcome State Fault Refusal :=
  jump (Instr.jf m0 m1).opcode m0 m1 (fun a => !isNonZero a) s

end Sys2Proof.Machine
end

