-- ==== Sys2Proof/Machine/RelBase.lean ====
section
/-! DEFINITION. The relative-base instruction, `spec/45_relbase.md` R170 and R171. -/

namespace Sys2Proof.Machine

/-- ARB (R170): `rb <- InWord(rb + a)`; in relative mode the operand is found with the old `rb`. -/
def execArb (m0 : Digit) (s : State) : Host.Outcome State Fault Refusal :=
  orRaise (Instr.arb m0).opcode s (readParam s.comp 0 m0) fun a =>
  orRaise (Instr.arb m0).opcode s (inWord (s.comp.rb.toInt + a.toInt)) fun v =>
  orRaise (Instr.arb m0).opcode s (nextPc s.comp 2) fun n =>
  setPc n { s with comp := { s.comp with rb := v } }

end Sys2Proof.Machine
end

