-- ==== Sys2Proof/Machine/Dispatch.lean ====
section
/-! DEFINITION. The dispatch of `spec/50_computer_run.md` R182: one arm per row of the opcode table. -/

namespace Sys2Proof.Machine

/-- The meaning of an instruction (R182). -/
def exec (i : Instr) (s : State) : Host.Outcome State Fault Refusal :=
  match i with
  | .add m0 m1 m2 => Sys2Proof.Machine.execAdd m0 m1 m2 s
  | .mul m0 m1 m2 => Sys2Proof.Machine.execMul m0 m1 m2 s
  | .input m0 => Sys2Proof.Machine.execInput m0 s
  | .output m0 => Sys2Proof.Machine.execOutput m0 s
  | .jt m0 m1 => Sys2Proof.Machine.execJt m0 m1 s
  | .jf m0 m1 => Sys2Proof.Machine.execJf m0 m1 s
  | .lt m0 m1 m2 => Sys2Proof.Machine.execLt m0 m1 m2 s
  | .eq m0 m1 m2 => Sys2Proof.Machine.execEq m0 m1 m2 s
  | .arb m0 => Sys2Proof.Machine.execArb m0 s
  | .halt => Sys2Proof.Machine.execHalt s
  | .illegal opcode => Sys2Proof.Machine.execIllegal opcode s

end Sys2Proof.Machine
end

