-- ==== Sys2Proof/Machine/Step.lean ====
section
/-! DEFINITION. One step of the machine: the agent whose turn it is acts once (`spec/10_state.md` R20). Inside
a `run` call that is the step of `50_computer_run.md` R180 to R183. -/

namespace Sys2Proof.Machine

/-- The engine's step (R180, R182): fetch, decode, dispatch. It is defined on a Computer that has neither
halted nor faulted; one that has executes nothing (R25, R186, R187). -/
def engineStep (s : State) : Host.Outcome State Fault Refusal :=
  match finished s.comp with
  | some r => .next (endCall r s)
  | none => exec (decode (fetch s.comp)) s

/-- One step. -/
def step (s : State) : Host.Outcome State Fault Refusal :=
  match s.control with
  | .quantum => engineStep s
  | .returned r => takeResult r s
  | .caller => callerStep s

/-- `s` with the words of the opcode table stored where `step` fetches next, so that the next step runs
exactly that instruction. -/
def State.withFetchWord (s : State) (nbits w : Nat) : State := loadAndRun (tableWords nbits w) s

end Sys2Proof.Machine
end

