-- ==== Sys2Proof/Safety.lean ====
section
/-! DEFINITION. What counts as a safe state, and the invariants the machine's states meet, in the terms the
statements use. -/

namespace Sys2Proof.Machine

/-- No Computer of the ring has faulted (`spec/50_computer_run.md` R196: only such a run can end in success). -/
def State.safe (s : State) : Bool := (ring s).all fun c => c.fault.isNone

/-- What every Computer of a reachable state meets: `0 ≤ pc ≤ AMAX` (R22), memory in canonical form, every
cell of it below `mem_size` (R27), `mem_size ≤ AMAX + 1` (R27), and a faulted Computer has not halted (R192). -/
abbrev Computer.Inv (c : Computer) : Prop :=
  c.pc ≤ amax ∧ Memory.wf c.mem = true ∧ Memory.below c.mem c.memSize = true ∧ c.memSize ≤ amax + 1 ∧
    (c.fault.isSome = true → c.halted = false)

/-- Every Computer of the ring meets `Computer.Inv`. -/
abbrev State.RingInv (s : State) : Prop := ∀ c ∈ ring s, Computer.Inv c

/-- A `run` call can be in progress: there is no network, or it is still scheduling (R194, R228). -/
abbrev State.callable (s : State) : Prop := s.net = none ∨ (activeNet s).isSome = true

/-- What a `run` call that has ended says of its Computer (R31, R185): a fault is the recorded one; a halt is
the flag, with outputs that end the log; a suspension is starvation, with exactly the outputs of the call. -/
def ResultInv (r : RunResult) (s : State) : Prop :=
  match r with
  | .fault f => s.comp.fault = some f
  | .halted outs => conditionOf s.comp = .halted ∧ outs <:+ s.comp.outLog
  | .suspended outs => conditionOf s.comp = .starved ∧ outs <:+ s.comp.outLog

/-- What `control` says of the Computer at the cursor: inside a quantum it has neither halted nor faulted and
its log is no shorter than at the start of the call; a result is as `ResultInv` says. -/
def State.CallInv (s : State) : Prop :=
  match s.control with
  | .caller => True
  | .quantum => State.callable s ∧ finished s.comp = none ∧ s.callStart ≤ s.comp.outLog.length
  | .returned r => State.callable s ∧ ResultInv r s

/-- What a network says of its ring (R35, R217, R220): a standalone Computer is a ring of one; a network has a
phase setting for each Computer; a network that is done stands at the last Computer, which has halted, with
the carried signal as its result; an aborted one stands at the Computer whose fault aborted it. -/
def State.NetInv (s : State) : Prop :=
  match s.net with
  | none => s.before = [] ∧ s.after = []
  | some net =>
    net.phase.length = ringSize s ∧
      match net.status with
      | .running => True
      | .done v => s.after = [] ∧ s.comp.halted = true ∧ v = net.carried
      | .aborted k f => k = cursor s ∧ s.comp.fault = some f

/-- The values the host has been handed since it last constructed something: what the `run` calls on the
present Computer have returned, concatenated in call order (R188). -/
def reported (replies : List HostReply) : List Word :=
  replies.foldl (init := []) fun acc r =>
    match r with
    | .created => []
    | .ran (.suspended outs) => acc ++ outs
    | .ran (.halted outs) => acc ++ outs
    | _ => acc

/-- For a standalone Computer that has not faulted, what the host has been handed is its output log: all of it
between calls, the part before the call inside one, and all but the call's own outputs when a result is
waiting (R188, R29). -/
def State.LogInv (s : State) : Prop :=
  s.net = none →
    match s.control with
    | .caller => s.comp.fault = none → reported s.replies = s.comp.outLog
    | .quantum =>
      finished s.comp = none ∧ s.callStart ≤ s.comp.outLog.length ∧
        reported s.replies = s.comp.outLog.take s.callStart
    | .returned (.fault f) => s.comp.fault = some f
    | .returned (.suspended outs) => reported s.replies ++ outs = s.comp.outLog
    | .returned (.halted outs) => reported s.replies ++ outs = s.comp.outLog

/-- The next step is the host's construction of a new Computer or network, which ends the present session. -/
def State.constructs (s : State) : Bool :=
  match s.control, activeNet s, s.calls with
  | .caller, none, .new _ :: _ => true
  | .caller, none, .network _ _ _ :: _ => true
  | _, _, _ => false

end Sys2Proof.Machine
end

