-- ==== Sys2Proof/Certificates/Slice0/Obligations.lean ====
section
/-! DEFINITION. The statements for the provers. Each says what the spec's rules say the machine does; none
is about a program. -/

namespace Sys2Proof.Machine

/-! ### What the statements share -/

/-- Everything outside the Computer at the cursor and the control is as before. -/
def SameSession (s s' : State) : Prop :=
  s'.cfg = s.cfg ∧ s'.before = s.before ∧ s'.after = s.after ∧ s'.net = s.net ∧
    s'.callStart = s.callStart ∧ s'.calls = s.calls ∧ s'.replies = s.replies

/-- The outcome is the taking of a fault (R183, R257, R259): the record is set, the `run` call returns it, and
nothing else changes. That faults are precise is the spec's decision D13, the record's `info` its decision D30
(log 10). -/
def Raises (o : Host.Outcome State Fault Refusal) (op : Int) (t : Trap) (s : State) : Prop :=
  ∃ s', o = .next s' ∧ s'.comp = { s.comp with fault := some ⟨t.kind, s.comp.pc, op, t.info⟩ } ∧
    s'.control = .returned (.fault ⟨t.kind, s.comp.pc, op, t.info⟩) ∧ SameSession s s'

/-- The integer `v` stands at `t`, every other address reads as before, storage has grown to hold `t` if it
was smaller, `pc` is `n`, the queue is `q`, and nothing else has changed. -/
def StoresInt (s s' : State) (t : Nat) (v : Int) (n : Nat) (q : List Word) : Prop :=
  (Memory.read s'.comp.mem t).toInt = v ∧
    (∀ x, x ≠ t → Memory.read s'.comp.mem x = Memory.read s.comp.mem x) ∧
    s'.comp.memSize = max s.comp.memSize (t + 1) ∧ s'.comp.pc = n ∧ s'.comp.inq = q ∧
    s'.comp.rb = s.comp.rb ∧ s'.comp.halted = s.comp.halted ∧ s'.comp.fault = s.comp.fault ∧
    s'.comp.outLog = s.comp.outLog ∧ s'.control = s.control ∧ SameSession s s'

/-- No address reads otherwise than before, and storage has not grown. -/
def SameMemory (s s' : State) : Prop :=
  (∀ x, Memory.read s'.comp.mem x = Memory.read s.comp.mem x) ∧ s'.comp.memSize = s.comp.memSize

/-- Either the `run` call goes on with the fault record as it was, or a fault has been taken. -/
def GoesOnOrFaults (s s' : State) : Prop :=
  (s'.control = s.control ∧ s'.comp.fault = s.comp.fault) ∨
    ∃ f, s'.control = .returned (.fault f) ∧ s'.comp.fault = some f

/-- The words of the image's Computer as R38 lists them, with the queue `q`. -/
def FreshWith (c : Computer) (image q : List Word) : Prop :=
  c.pc = 0 ∧ c.rb = 0 ∧ c.halted = false ∧ c.fault = none ∧ c.inq = q ∧ c.outLog = [] ∧
    c.memSize = image.length ∧ ∀ a, Memory.read c.mem a = image.getD a 0

/-- The first defect of an instruction's operands in the fixed order (R120, R258): parameters in index order,
each completely before the next; IN has one only when an input is available; the illegal space has one. -/
def FirstDefect (i : Instr) (c : Computer) (e : Trap) : Prop :=
  let three (m0 m1 m2 : Digit) : Prop :=
    readParam c 0 m0 = .error e ∨ (∃ a, readParam c 0 m0 = .ok a ∧ readParam c 1 m1 = .error e) ∨
      ∃ a b, readParam c 0 m0 = .ok a ∧ readParam c 1 m1 = .ok b ∧ writeAddr c 2 m2 = .error e
  let two (m0 m1 : Digit) : Prop :=
    readParam c 0 m0 = .error e ∨ ∃ a, readParam c 0 m0 = .ok a ∧ readParam c 1 m1 = .error e
  match i with
  | .add m0 m1 m2 => three m0 m1 m2
  | .mul m0 m1 m2 => three m0 m1 m2
  | .lt m0 m1 m2 => three m0 m1 m2
  | .eq m0 m1 m2 => three m0 m1 m2
  | .input m0 => c.inq ≠ [] ∧ writeAddr c 0 m0 = .error e
  | .output m0 => readParam c 0 m0 = .error e
  | .jt m0 m1 => two m0 m1
  | .jf m0 m1 => two m0 m1
  | .arb m0 => readParam c 0 m0 = .error e
  | .halt => False
  | .illegal _ => e = ⟨.invalidOpcode, .none⟩

/-- The eighteen canonical opcode words of a four-word instruction with opcode value `op`, as R95 writes them out
for ADD. -/
def canonicalF3W (op : Int) : List Int :=
  [0, 100, 200, 1000, 1100, 1200, 2000, 2100, 2200, 20000, 20100, 20200, 21000, 21100, 21200, 22000, 22100,
    22200].map (· + op)

/-- All canonical opcode words, as R95 writes them out. -/
def canonicalWords : List Int :=
  [99, 4, 104, 204, 9, 109, 209, 3, 203] ++ [5, 105, 205, 1005, 1105, 1205, 2005, 2105, 2205] ++
    [6, 106, 206, 1006, 1106, 1206, 2006, 2106, 2206] ++ canonicalF3W 1 ++ canonicalF3W 2 ++ canonicalF3W 7 ++
    canonicalF3W 8

/-- The same machine with `ys` more values at the tail of the acting Computer's queue. -/
def withInputs (ys : List Word) (s : State) : State :=
  { s with comp := { s.comp with inq := s.comp.inq ++ ys } }

end Sys2Proof.Machine

open Sys2Proof Sys2Proof.Machine

/-! ### Encoding and decoding -/

/-- Decoding inverts encoding on every instruction, every digit of every mode place included: the encoding
(R81 to R85) loses nothing. What encodes an opcode value of the illegal space is the model's choice (log 13). -/
def Obligations.DecodeOfEncode : Prop :=
  ∀ i : Instr, i.encodable = true → decode (encode i) = i

/-- A word that is an instruction is not negative (the spec's decision D6, R90, log 9), and encoding what it
decodes to gives the word without its digits at places `2 + arity` and above: those, and only those, are never
examined (R91 b, which the spec derives). -/
def Obligations.EncodeOfDecode : Prop :=
  ∀ w : Word, (decode w).isIllegal = false →
    0 ≤ w.toInt ∧ (encode (decode w)).toInt = w.toInt % (100 * 10 ^ (decode w).arity)

/-- The fields of a word `w ≥ 0`: the opcode value is `w mod 100` (R82), and the mode digit of parameter `i`,
for `i` in {0, 1, 2}, is `(w div (100 × 10^i)) mod 10` (R83); those are the opcode and the digits of the
instruction it decodes to. -/
def Obligations.FieldsOfAnOpcodeWord : Prop :=
  ∀ w : Word, 0 ≤ w.toInt →
    (decode w).opcode = w.toInt % 100 ∧
      (∀ i : Nat, i < 3 → ((modeDigit w i).val : Int) = w.toInt / (100 * 10 ^ i) % 10) ∧
      (decode w).digits = (List.range (decode w).arity).map (modeDigit w)

/-- Which words are illegal, and with what opcode value (R89, R94): those `w ≥ 0` whose `w mod 100` is not 1 to 9
or 99, with `w mod 100`, and every negative word, with the truncated remainder (the spec's decision D6, R90,
log 9). -/
def Obligations.IllegalWords : Prop :=
  ∀ w : Word,
    (0 ≤ w.toInt →
        ((decode w).isIllegal = true ↔ w.toInt % 100 ∉ ([1, 2, 3, 4, 5, 6, 7, 8, 9, 99] : List Int)) ∧
          ((decode w).isIllegal = true → decode w = .illegal (w.toInt % 100))) ∧
      (w.toInt < 0 → decode w = .illegal (w.toInt.tmod 100))

/-- The canonical opcode words that R95 derives and lists are exactly the words that decode to a well-formed
instruction and are its encoding; there are 99 of them. -/
def Obligations.CanonicalWordsAreThoseListed : Prop :=
  canonicalWords.length = 99 ∧
    ∀ w : Word, w.toInt ∈ canonicalWords ↔
      (decode w).isIllegal = false ∧ (decode w).wellFormed = true ∧ encode (decode w) = w

/-- Words written out from the encoding rules decode to the instruction they stand for, one or more of each
family (R85, R88, R89, R90, R91). -/
def Obligations.SampleWordsDecode : Prop :=
  decode 1002 = .mul 0 1 0 ∧ decode 21001 = .add 0 1 2 ∧ decode 3 = .input 0 ∧ decode 204 = .output 2 ∧
    decode 1105 = .jt 1 1 ∧ decode 1006 = .jf 0 1 ∧ decode 1107 = .lt 1 1 0 ∧ decode 22208 = .eq 2 2 2 ∧
    decode 109 = .arb 1 ∧ decode 12399 = .halt ∧ decode 700001 = .add 0 0 0 ∧ decode 3004 = .output 0 ∧
    decode 0 = .illegal 0 ∧ decode 98 = .illegal 98 ∧ decode (-1) = .illegal (-1) ∧
    decode (-199) = .illegal (-99)

/-! ### Operands -/

/-- Position and immediate mode (R111, R112, R115). Read, position: the word at the parameter word's address;
below 0, `NegativeAddress`; beyond storage, 0. Read, immediate: the parameter word, any `Word`. Write,
position: the parameter word is the target address; below 0, `NegativeAddress`. Resolution is a function of
the Computer alone: it changes nothing and storage does not grow. -/
def Obligations.PositionAndImmediateParameters : Prop :=
  ∀ (c : Computer) (i : Nat) (p : Word), c.pc + 1 + i ≤ amax → Memory.read c.mem (c.pc + 1 + i) = p →
    (0 ≤ p.toInt → readParam c i 0 = .ok (Memory.read c.mem p.toInt.toNat)) ∧
      (p.toInt < 0 → readParam c i 0 = .error ⟨.negativeAddress, .value p.toInt⟩) ∧
      (Memory.below c.mem c.memSize = true → (c.memSize : Int) ≤ p.toInt → readParam c i 0 = .ok 0) ∧
      readParam c i 1 = .ok p ∧
      (0 ≤ p.toInt → writeAddr c i 0 = .ok p.toInt.toNat) ∧
      (p.toInt < 0 → writeAddr c i 0 = .error ⟨.negativeAddress, .value p.toInt⟩)

/-- Relative mode (R113, R116). The address is the exact sum of `rb` and the parameter word: the word there is
the operand, or the address is the target; below 0, `NegativeAddress`; above `AMAX`, `Overflow` (the spec's
decision D5). -/
def Obligations.RelativeParameters : Prop :=
  ∀ (c : Computer) (i : Nat) (p : Word), c.pc + 1 + i ≤ amax → Memory.read c.mem (c.pc + 1 + i) = p →
    (0 ≤ c.rb.toInt + p.toInt → c.rb.toInt + p.toInt ≤ amax →
        readParam c i 2 = .ok (Memory.read c.mem (c.rb.toInt + p.toInt).toNat) ∧
          writeAddr c i 2 = .ok (c.rb.toInt + p.toInt).toNat) ∧
      (c.rb.toInt + p.toInt < 0 →
        readParam c i 2 = .error ⟨.negativeAddress, .value (c.rb.toInt + p.toInt)⟩ ∧
          writeAddr c i 2 = .error ⟨.negativeAddress, .value (c.rb.toInt + p.toInt)⟩) ∧
      ((amax : Int) < c.rb.toInt + p.toInt →
        readParam c i 2 = .error ⟨.overflow, .value (c.rb.toInt + p.toInt)⟩ ∧
          writeAddr c i 2 = .error ⟨.overflow, .value (c.rb.toInt + p.toInt)⟩)

/-- Immediate mode on a write parameter is illegal (R117, R92): parameter 2 of ADD, MUL, LT and EQ, whose
operands resolve, and parameter 0 of IN, with an input available, raise `InvalidWriteMode`, and no cell is
written. That this comes before the result and the next `pc` are checked, and that IN tests its queue first, are
the spec's decisions D10 and D11; the unchanged state and the record's `info` are D13 and D30 (log 10).
Operands that do not resolve are `FirstDefectIsReported`'s, the empty queue
`InSuspendsOnAnEmptyQueue`'s. -/
def Obligations.ImmediateWriteIsInvalid : Prop :=
  ∀ (m0 m1 : Digit) (s : State) (a b : Word),
    (readParam s.comp 0 m0 = .ok a → readParam s.comp 1 m1 = .ok b →
        Raises (exec (.add m0 m1 1) s) 1 ⟨.invalidWriteMode, .param 2⟩ s ∧
          Raises (exec (.mul m0 m1 1) s) 2 ⟨.invalidWriteMode, .param 2⟩ s ∧
          Raises (exec (.lt m0 m1 1) s) 7 ⟨.invalidWriteMode, .param 2⟩ s ∧
          Raises (exec (.eq m0 m1 1) s) 8 ⟨.invalidWriteMode, .param 2⟩ s) ∧
      (s.comp.inq ≠ [] → Raises (exec (.input 1) s) 3 ⟨.invalidWriteMode, .param 0⟩ s)

/-- The order of checks inside one parameter (R114, R118, the spec's decision D10): a digit 3 to 9 is
`InvalidMode`, and digit 1 of a write parameter `InvalidWriteMode`, before the parameter word is fetched; then
a parameter word above `AMAX` is `Overflow` (R110). -/
def Obligations.DigitsAreCheckedBeforeFetching : Prop :=
  ∀ (c : Computer) (i : Nat) (d : Digit),
    (3 ≤ d →
      readParam c i d = .error ⟨.invalidMode, .digit i d⟩ ∧
        writeAddr c i d = .error ⟨.invalidMode, .digit i d⟩) ∧
      writeAddr c i 1 = .error ⟨.invalidWriteMode, .param i⟩ ∧
      (amax < c.pc + 1 + i →
        (d ≤ 2 → readParam c i d = .error ⟨.overflow, .value (c.pc + 1 + i)⟩) ∧
          (d = 0 ∨ d = 2 → writeAddr c i d = .error ⟨.overflow, .value (c.pc + 1 + i)⟩))

/-! ### Memory -/

/-- `MemRead(a, 1)` for any integer `a` (R52): below 0 `NegativeAddress`; above `AMAX` `Overflow` (R56, the
spec's decisions D1 and D5, log 9); else the stored word, and 0 at or beyond `mem_size`. -/
def Obligations.MemReadOfAnyInteger : Prop :=
  ∀ (c : Computer) (a : Int), Memory.below c.mem c.memSize = true →
    (a < 0 → memRead c a = .error ⟨.negativeAddress, .value a⟩) ∧
      ((amax : Int) < a → memRead c a = .error ⟨.overflow, .value a⟩) ∧
      (0 ≤ a → a ≤ amax →
        memRead c a = .ok (if a < c.memSize then Memory.read c.mem a.toNat else 0))

/-- A write (R53): the address holds the value, every other address reads as before, storage grows to
`a + 1` if it was smaller and never shrinks, and the cells between the old and the new size read 0. -/
def Obligations.WriteThenRead : Prop :=
  ∀ (c : Computer) (a : Nat) (v : Word),
    Memory.read (memWrite c a v).mem a = v ∧
      (∀ b, b ≠ a → Memory.read (memWrite c a v).mem b = Memory.read c.mem b) ∧
      (memWrite c a v).memSize = (if c.memSize ≤ a then a + 1 else c.memSize) ∧
      (Memory.below c.mem c.memSize = true →
        ∀ b, c.memSize ≤ b → b < a → Memory.read (memWrite c a v).mem b = 0)

/-- Two memories in canonical form that read alike at every address are the same data: the form is canonical
(the model's own choice, log 1). -/
def Obligations.CanonicalMemoriesAgree : Prop :=
  ∀ m m' : Memory, Memory.wf m = true → Memory.wf m' = true →
    (∀ a, Memory.read m a = Memory.read m' a) → m = m'

/-- `new` gives the complete reset state (R38) for every image, with memory in canonical form. -/
def Obligations.NewComputerIsReset : Prop :=
  ∀ image : List Word, FreshWith (newComputer image) image [] ∧
    Memory.wf (newComputer image).mem = true ∧
    Memory.below (newComputer image).mem (newComputer image).memSize = true

/-- The machine right after reset (R38, R290): a Computer in the reset state of the empty image. That the
image is empty, that there is no network, that no `run` call is in progress, that the host has asked nothing,
and that `MEM_CAP` has its normative value are the model's choices (log 5, log 6, log 7, log 8). -/
def Obligations.ResetState : Prop :=
  FreshWith State.reset.comp [] [] ∧ ring State.reset = [State.reset.comp] ∧ cursor State.reset = 0 ∧
    State.reset.net = none ∧ State.reset.control = .caller ∧ State.reset.calls = [] ∧
    State.reset.replies = [] ∧ State.reset.cfg.memCap = amax

/-! ### What each instruction does when it completes -/

/-- ADD (R130): the exact sum is stored at the target and `pc` advances by 4. -/
def Obligations.AddStoresTheSum : Prop :=
  ∀ (m0 m1 m2 : Digit) (s : State) (a b : Word) (t : Nat),
    readParam s.comp 0 m0 = .ok a → readParam s.comp 1 m1 = .ok b → writeAddr s.comp 2 m2 = .ok t →
    InRange (a.toInt + b.toInt) → s.comp.pc + 4 ≤ amax → t ≤ s.cfg.memCap →
    ∃ s', exec (.add m0 m1 m2) s = .next s' ∧
      StoresInt s s' t (a.toInt + b.toInt) (s.comp.pc + 4) s.comp.inq

/-- MUL (R131): the exact product is stored at the target and `pc` advances by 4. -/
def Obligations.MulStoresTheProduct : Prop :=
  ∀ (m0 m1 m2 : Digit) (s : State) (a b : Word) (t : Nat),
    readParam s.comp 0 m0 = .ok a → readParam s.comp 1 m1 = .ok b → writeAddr s.comp 2 m2 = .ok t →
    InRange (a.toInt * b.toInt) → s.comp.pc + 4 ≤ amax → t ≤ s.cfg.memCap →
    ∃ s', exec (.mul m0 m1 m2) s = .next s' ∧
      StoresInt s s' t (a.toInt * b.toInt) (s.comp.pc + 4) s.comp.inq

/-- LT (R160): a defect of a parameter is raised, the first in index order (the spec's decision D10, log 10);
else 1 if `a < b` as signed integers, else 0, is stored at the target and `pc` advances by 4, or `Overflow` is
raised if it cannot (the spec's decision D2, log 9). -/
def Obligations.LtStoresTheComparison : Prop :=
  ∀ (m0 m1 m2 : Digit) (s : State),
    (∀ e, FirstDefect (.lt m0 m1 m2) s.comp e → Raises (exec (.lt m0 m1 m2) s) 7 e s) ∧
      ∀ (a b : Word) (t : Nat),
        readParam s.comp 0 m0 = .ok a → readParam s.comp 1 m1 = .ok b → writeAddr s.comp 2 m2 = .ok t →
        (s.comp.pc + 4 ≤ amax → t ≤ s.cfg.memCap →
            ∃ s', exec (.lt m0 m1 m2) s = .next s' ∧
              StoresInt s s' t (if a.toInt < b.toInt then 1 else 0) (s.comp.pc + 4) s.comp.inq) ∧
          (amax < s.comp.pc + 4 →
            Raises (exec (.lt m0 m1 m2) s) 7 ⟨.overflow, .value (s.comp.pc + 4)⟩ s)

/-- EQ (R161): a defect of a parameter is raised, the first in index order (the spec's decision D10, log 10);
else 1 if `a = b`, else 0, is stored at the target and `pc` advances by 4, or `Overflow` is raised if it cannot
(the spec's decision D2, log 9). -/
def Obligations.EqStoresTheComparison : Prop :=
  ∀ (m0 m1 m2 : Digit) (s : State),
    (∀ e, FirstDefect (.eq m0 m1 m2) s.comp e → Raises (exec (.eq m0 m1 m2) s) 8 e s) ∧
      ∀ (a b : Word) (t : Nat),
        readParam s.comp 0 m0 = .ok a → readParam s.comp 1 m1 = .ok b → writeAddr s.comp 2 m2 = .ok t →
        (s.comp.pc + 4 ≤ amax → t ≤ s.cfg.memCap →
            ∃ s', exec (.eq m0 m1 m2) s = .next s' ∧
              StoresInt s s' t (if a.toInt = b.toInt then 1 else 0) (s.comp.pc + 4) s.comp.inq) ∧
          (amax < s.comp.pc + 4 →
            Raises (exec (.eq m0 m1 m2) s) 8 ⟨.overflow, .value (s.comp.pc + 4)⟩ s)

/-- IN with an input available (R140): the oldest queued value is removed and stored at the target, and `pc`
advances by 2. -/
def Obligations.InStoresTheOldestInput : Prop :=
  ∀ (m0 : Digit) (s : State) (v : Word) (rest : List Word) (t : Nat),
    s.comp.inq = v :: rest → writeAddr s.comp 0 m0 = .ok t → s.comp.pc + 2 ≤ amax → t ≤ s.cfg.memCap →
    ∃ s', exec (.input m0) s = .next s' ∧ StoresInt s s' t v.toInt (s.comp.pc + 2) rest

/-- Suspension (R142). IN with an empty queue ends the `run` call with the values emitted during it (the suffix
of the log the call added, the spec's decision D15), the Computer exactly as it was, whatever the mode digit
(the spec's decision D11, log 10); no other instruction and no other condition suspends; and a later `run` call
of the host (log 5, log 6) with input finds the same `pc` and decodes the same IN again. -/
def Obligations.InSuspendsOnAnEmptyQueue : Prop :=
  (∀ (m0 : Digit) (s : State), s.comp.inq = [] →
      ∃ s', exec (.input m0) s = .next s' ∧ s'.comp = s.comp ∧
        s'.control = .returned (.suspended (s.comp.outLog.drop s.callStart)) ∧ SameSession s s') ∧
    (∀ (i : Instr) (s s' : State) (outs : List Word), s.control = .quantum → exec i s = .next s' →
      s'.control = .returned (.suspended outs) → (∃ m0, i = .input m0) ∧ s.comp.inq = []) ∧
    ∀ (m0 : Digit) (s : State) (v : Word) (vs : List Word) (rest : List HostCall),
      s.control = .caller → s.net = none → s.calls = .run (v :: vs) :: rest →
      s.comp.fault = none → s.comp.halted = false → s.comp.inq = [] →
      decode (Memory.read s.comp.mem s.comp.pc) = .input m0 →
      ∃ s', step s = .next s' ∧ s'.comp = { s.comp with inq := v :: vs } ∧ step s' = exec (.input m0) s'

/-- OUT (R141): a defect of its parameter is raised (checked in the order of the spec's decision D10, log 10);
else the operand is appended to the log, whole, and `pc` advances by 2, or `Overflow` is raised, nothing
emitted, if it cannot (the spec's decision D2, log 9). -/
def Obligations.OutEmitsTheOperand : Prop :=
  ∀ (m0 : Digit) (s : State),
    (∀ e, FirstDefect (.output m0) s.comp e → Raises (exec (.output m0) s) 4 e s) ∧
      ∀ a : Word, readParam s.comp 0 m0 = .ok a →
        (s.comp.pc + 2 ≤ amax →
            ∃ s', exec (.output m0) s = .next s' ∧
              s'.comp = { s.comp with outLog := s.comp.outLog ++ [a], pc := s.comp.pc + 2 } ∧
              s'.control = s.control ∧ SameSession s s') ∧
          (amax < s.comp.pc + 2 → Raises (exec (.output m0) s) 4 ⟨.overflow, .value (s.comp.pc + 2)⟩ s)

/-- JT (R150): `pc` becomes the second operand if the first is not 0, else advances by 3, whatever the second
operand is. Both operands are resolved either way (R153, the spec's decision D12). -/
def Obligations.JtJumpsIfTrue : Prop :=
  ∀ (m0 m1 : Digit) (s : State) (a b : Word),
    readParam s.comp 0 m0 = .ok a → readParam s.comp 1 m1 = .ok b →
    (a.toInt ≠ 0 → 0 ≤ b.toInt →
        ∃ s', exec (.jt m0 m1) s = .next s' ∧ s'.comp = { s.comp with pc := b.toInt.toNat } ∧
          s'.control = s.control ∧ SameSession s s') ∧
      (a.toInt = 0 → s.comp.pc + 3 ≤ amax →
        ∃ s', exec (.jt m0 m1) s = .next s' ∧ s'.comp = { s.comp with pc := s.comp.pc + 3 } ∧
          s'.control = s.control ∧ SameSession s s')

/-- JF (R151): as JT with the condition inverted; both operands are resolved either way (R153, the spec's
decision D12). -/
def Obligations.JfJumpsIfFalse : Prop :=
  ∀ (m0 m1 : Digit) (s : State) (a b : Word),
    readParam s.comp 0 m0 = .ok a → readParam s.comp 1 m1 = .ok b →
    (a.toInt = 0 → 0 ≤ b.toInt →
        ∃ s', exec (.jf m0 m1) s = .next s' ∧ s'.comp = { s.comp with pc := b.toInt.toNat } ∧
          s'.control = s.control ∧ SameSession s s') ∧
      (a.toInt ≠ 0 → s.comp.pc + 3 ≤ amax →
        ∃ s', exec (.jf m0 m1) s = .next s' ∧ s'.comp = { s.comp with pc := s.comp.pc + 3 } ∧
          s'.control = s.control ∧ SameSession s s')

/-- ARB (R170): `rb` becomes the exact sum of its old value and the operand, which in relative mode is found
with the old `rb`, and `pc` advances by 2. -/
def Obligations.ArbAddsToTheRelativeBase : Prop :=
  ∀ (m0 : Digit) (s : State) (a : Word),
    readParam s.comp 0 m0 = .ok a → InRange (s.comp.rb.toInt + a.toInt) → s.comp.pc + 2 ≤ amax →
    ∃ s', exec (.arb m0) s = .next s' ∧ s'.comp.rb.toInt = s.comp.rb.toInt + a.toInt ∧
      s'.comp = { s.comp with rb := s'.comp.rb, pc := s.comp.pc + 2 } ∧
      s'.control = s.control ∧ SameSession s s'

/-- HALT (R175): `halted` is set, nothing else of the Computer changes (that `pc` stays is the spec's decision
D14), and the `run` call ends with the values emitted during it. -/
def Obligations.HaltSetsTheFlag : Prop :=
  ∀ s : State, ∃ s', exec .halt s = .next s' ∧ s'.comp = { s.comp with halted := true } ∧
    s'.control = .returned (.halted (s.comp.outLog.drop s.callStart)) ∧ SameSession s s'

/-- The illegal space (R251): `InvalidOpcode` is raised with the opcode value and the `pc`. -/
def Obligations.IllegalRaisesInvalidOpcode : Prop :=
  ∀ (op : Int) (s : State), Raises (exec (.illegal op) s) op ⟨.invalidOpcode, .none⟩ s

/-! ### Faults -/

/-- A result that is no `Word` raises `Overflow` with the exact value: ADD, MUL and ARB (R133, the spec's
decision D4). -/
def Obligations.ResultsOutOfRangeOverflow : Prop :=
  ∀ (m0 m1 m2 : Digit) (s : State) (a b : Word) (t : Nat), readParam s.comp 0 m0 = .ok a →
    (readParam s.comp 1 m1 = .ok b → writeAddr s.comp 2 m2 = .ok t → ¬ InRange (a.toInt + b.toInt) →
        Raises (exec (.add m0 m1 m2) s) 1 ⟨.overflow, .value (a.toInt + b.toInt)⟩ s) ∧
      (readParam s.comp 1 m1 = .ok b → writeAddr s.comp 2 m2 = .ok t → ¬ InRange (a.toInt * b.toInt) →
        Raises (exec (.mul m0 m1 m2) s) 2 ⟨.overflow, .value (a.toInt * b.toInt)⟩ s) ∧
      (¬ InRange (s.comp.rb.toInt + a.toInt) →
        Raises (exec (.arb m0) s) 9 ⟨.overflow, .value (s.comp.rb.toInt + a.toInt)⟩ s)

/-- Jump targets (R152, the spec's decision D9, log 9): a taken jump uses the operand whole as the new `pc`,
which is never above `AMAX`, and raises `NegativeAddress` with `pc` unchanged if it is below 0; a jump not taken
raises nothing on account of it. -/
def Obligations.JumpTargets : Prop :=
  ∀ (m0 m1 : Digit) (s : State) (a b : Word),
    readParam s.comp 0 m0 = .ok a → readParam s.comp 1 m1 = .ok b →
    b.toInt ≤ amax ∧
      (a.toInt ≠ 0 → b.toInt < 0 →
        Raises (exec (.jt m0 m1) s) 5 ⟨.negativeAddress, .value b.toInt⟩ s) ∧
      (a.toInt = 0 → b.toInt < 0 →
        Raises (exec (.jf m0 m1) s) 6 ⟨.negativeAddress, .value b.toInt⟩ s) ∧
      (a.toInt ≠ 0 → 0 ≤ b.toInt →
        ∃ s', exec (.jt m0 m1) s = .next s' ∧ (s'.comp.pc : Int) = b.toInt) ∧
      (a.toInt = 0 → 0 ≤ b.toInt →
        ∃ s', exec (.jf m0 m1) s = .next s' ∧ (s'.comp.pc : Int) = b.toInt) ∧
      (a.toInt = 0 → s.comp.pc + 3 ≤ amax →
        ∃ s', exec (.jt m0 m1) s = .next s' ∧ s'.comp.fault = s.comp.fault) ∧
      (a.toInt ≠ 0 → s.comp.pc + 3 ≤ amax →
        ∃ s', exec (.jf m0 m1) s = .next s' ∧ s'.comp.fault = s.comp.fault)

/-- `pc` never wraps (R22, the spec's decision D2, log 9): an instruction that would advance it beyond `AMAX`
raises `Overflow` with the value, after all its other checks (D10, log 10), and changes nothing else. -/
def Obligations.AdvanceBeyondAmaxOverflows : Prop :=
  ∀ (m0 m1 m2 : Digit) (s : State) (a b : Word) (t : Nat),
    (readParam s.comp 0 m0 = .ok a → readParam s.comp 1 m1 = .ok b → writeAddr s.comp 2 m2 = .ok t →
        amax < s.comp.pc + 4 →
        (InRange (a.toInt + b.toInt) →
            Raises (exec (.add m0 m1 m2) s) 1 ⟨.overflow, .value (s.comp.pc + 4)⟩ s) ∧
          (InRange (a.toInt * b.toInt) →
            Raises (exec (.mul m0 m1 m2) s) 2 ⟨.overflow, .value (s.comp.pc + 4)⟩ s) ∧
          Raises (exec (.lt m0 m1 m2) s) 7 ⟨.overflow, .value (s.comp.pc + 4)⟩ s ∧
          Raises (exec (.eq m0 m1 m2) s) 8 ⟨.overflow, .value (s.comp.pc + 4)⟩ s) ∧
      (readParam s.comp 0 m0 = .ok a → readParam s.comp 1 m1 = .ok b → amax < s.comp.pc + 3 →
        (a.toInt = 0 → Raises (exec (.jt m0 m1) s) 5 ⟨.overflow, .value (s.comp.pc + 3)⟩ s) ∧
          (a.toInt ≠ 0 → Raises (exec (.jf m0 m1) s) 6 ⟨.overflow, .value (s.comp.pc + 3)⟩ s)) ∧
      (amax < s.comp.pc + 2 →
        (s.comp.inq ≠ [] → writeAddr s.comp 0 m0 = .ok t →
            Raises (exec (.input m0) s) 3 ⟨.overflow, .value (s.comp.pc + 2)⟩ s) ∧
          (readParam s.comp 0 m0 = .ok a →
            Raises (exec (.output m0) s) 4 ⟨.overflow, .value (s.comp.pc + 2)⟩ s ∧
              (InRange (s.comp.rb.toInt + a.toInt) →
                Raises (exec (.arb m0) s) 9 ⟨.overflow, .value (s.comp.pc + 2)⟩ s)))

/-- The first defect of an instruction's parameters in index order is the fault it takes, whatever else is
wrong with it (R120, R258); both parameters of a jump are resolved though it is not taken (R153). -/
def Obligations.FirstDefectIsReported : Prop :=
  ∀ (i : Instr) (s : State) (e : Trap), FirstDefect i s.comp e → Raises (exec i s) i.opcode e s

/-- Fault entry (R259): when an instruction sets the fault record, the record holds its own `pc` and opcode, the
`run` call returns it, and no other item has changed (precise faults are the spec's decision D13, R183, log 10);
in a running network the next step aborts the network, which records the ring position and the fault (the
spec's decision D25, R220, log 11). -/
def Obligations.FaultsArePrecise : Prop :=
  ∀ (i : Instr) (s s' : State) (f : FaultRecord),
    exec i s = .next s' → s.comp.fault = none → s'.comp.fault = some f →
    f.pc = s.comp.pc ∧ f.opcode = i.opcode ∧ s'.comp = { s.comp with fault := some f } ∧
      s'.control = .returned (.fault f) ∧ SameSession s s' ∧
      ∀ net : Network, s.net = some net → net.status = .running →
        ∃ s'', step s' = .next s'' ∧ s''.net = some { net with status := .aborted (cursor s) f } ∧
          ring s'' = ring s'

/-- Which instruction can raise which fault (R264): `InvalidOpcode` the illegal space and nothing else; HALT
none; IN none while its queue is empty; `InvalidWriteMode` only an instruction with a write parameter. -/
def Obligations.FaultKindsByInstruction : Prop :=
  ∀ (i : Instr) (s s' : State) (f : FaultRecord),
    exec i s = .next s' → s.comp.fault = none → s'.comp.fault = some f →
    (f.kind = .invalidOpcode ↔ i.isIllegal = true) ∧ i ≠ .halt ∧
      (∀ m0, i = .input m0 → s.comp.inq ≠ []) ∧
      (f.kind = .invalidWriteMode → Role.write ∈ i.roles) ∧
      (f.kind = .invalidMode → i.roles ≠ [])

/-- The step of an instruction is total (R180): at the normative `MEM_CAP` every instruction answers a next
state, in every state; none is refused and none stops the machine. -/
def Obligations.EveryInstructionAnswers : Prop :=
  ∀ (i : Instr) (s : State), amax ≤ s.cfg.memCap → ∃ s', exec i s = .next s'

/-! ### Frames -/

/-- ADD, MUL, LT, EQ: every address but the target reads as before; `rb`, `halted`, the queue, the log and
everything outside the Computer are unchanged; storage does not shrink. -/
def Obligations.StoringInstructionsFrame : Prop :=
  ∀ (i : Instr) (m0 m1 m2 : Digit) (s s' : State),
    i = .add m0 m1 m2 ∨ i = .mul m0 m1 m2 ∨ i = .lt m0 m1 m2 ∨ i = .eq m0 m1 m2 → exec i s = .next s' →
    (∀ x, (∀ t, writeAddr s.comp 2 m2 = .ok t → x ≠ t) →
        Memory.read s'.comp.mem x = Memory.read s.comp.mem x) ∧
      (s'.comp.memSize = s.comp.memSize ∨
        ∃ t, writeAddr s.comp 2 m2 = .ok t ∧ s'.comp.memSize = max s.comp.memSize (t + 1)) ∧
      s'.comp.rb = s.comp.rb ∧ s'.comp.halted = s.comp.halted ∧ s'.comp.inq = s.comp.inq ∧
      s'.comp.outLog = s.comp.outLog ∧ GoesOnOrFaults s s' ∧ SameSession s s'

/-- IN: every address but the target reads as before; at most the oldest value leaves the queue; `rb`,
`halted`, the log and everything outside the Computer are unchanged. -/
def Obligations.InputFrame : Prop :=
  ∀ (m0 : Digit) (s s' : State), exec (.input m0) s = .next s' →
    (∀ x, (∀ t, writeAddr s.comp 0 m0 = .ok t → x ≠ t) →
        Memory.read s'.comp.mem x = Memory.read s.comp.mem x) ∧
      (s'.comp.memSize = s.comp.memSize ∨
        ∃ t, writeAddr s.comp 0 m0 = .ok t ∧ s'.comp.memSize = max s.comp.memSize (t + 1)) ∧
      (s'.comp.inq = s.comp.inq ∨ s'.comp.inq = s.comp.inq.tail) ∧
      s'.comp.rb = s.comp.rb ∧ s'.comp.halted = s.comp.halted ∧ s'.comp.outLog = s.comp.outLog ∧
      SameSession s s' ∧
      (GoesOnOrFaults s s' ∨
        (s'.control = .returned (.suspended (s.comp.outLog.drop s.callStart)) ∧ s'.comp = s.comp))

/-- OUT, ARB, JT, JF: no address reads otherwise; `halted`, the queue and everything outside the Computer are
unchanged; only OUT touches the log, and only at its end; only ARB touches `rb`. -/
def Obligations.NonStoringInstructionsFrame : Prop :=
  ∀ (i : Instr) (m0 m1 : Digit) (s s' : State),
    i = .output m0 ∨ i = .arb m0 ∨ i = .jt m0 m1 ∨ i = .jf m0 m1 → exec i s = .next s' →
    SameMemory s s' ∧ s'.comp.halted = s.comp.halted ∧ s'.comp.inq = s.comp.inq ∧
      (i ≠ .output m0 → s'.comp.outLog = s.comp.outLog) ∧
      (s'.comp.outLog = s.comp.outLog ∨ ∃ a, s'.comp.outLog = s.comp.outLog ++ [a]) ∧
      (i ≠ .arb m0 → s'.comp.rb = s.comp.rb) ∧ GoesOnOrFaults s s' ∧ SameSession s s'

/-- HALT and the illegal space: no address reads otherwise; `pc` (at a HALT by the spec's decision D14, log 10),
`rb`, the queue, the log and everything outside the Computer are unchanged; HALT leaves the fault record, the
illegal space the halted flag. -/
def Obligations.EndingInstructionsFrame : Prop :=
  ∀ (i : Instr) (s s' : State), i = .halt ∨ i.isIllegal = true → exec i s = .next s' →
    SameMemory s s' ∧ s'.comp.pc = s.comp.pc ∧ s'.comp.rb = s.comp.rb ∧ s'.comp.inq = s.comp.inq ∧
      s'.comp.outLog = s.comp.outLog ∧ (i = .halt → s'.comp.fault = s.comp.fault) ∧
      (i ≠ .halt → s'.comp.halted = s.comp.halted) ∧ SameSession s s'

/-- Who writes what, over all instructions: `rb` ARB alone (R23), `halted` HALT alone (R24), the queue IN alone
(R28), the log OUT alone (R29), memory ADD, MUL, LT, EQ and IN alone (R62). -/
def Obligations.WritersOfEachItem : Prop :=
  ∀ (i : Instr) (s s' : State), exec i s = .next s' →
    (s'.comp.rb ≠ s.comp.rb → ∃ m0, i = .arb m0) ∧
      (s'.comp.halted ≠ s.comp.halted → i = .halt) ∧
      (s'.comp.inq ≠ s.comp.inq → ∃ m0, i = .input m0) ∧
      (s'.comp.outLog ≠ s.comp.outLog → ∃ m0, i = .output m0) ∧
      (¬ SameMemory s s' → Role.write ∈ i.roles)

/-! ### The engine and `run` -/

/-- A step inside a `run` call fetches the word at `pc`, decodes it and runs that instruction, legal or not,
with nothing around it (R180 to R182). Inside a call on a Computer that has halted or faulted, where R180
defines no step and no run comes, the model's choice (log 17) is that the step runs nothing and ends the call
with what R186 (the spec's decision D18) and R187 (D8) give a new call. -/
def Obligations.StepRunsTheDecodedInstruction : Prop :=
  ∀ s : State, s.control = .quantum →
    (s.comp.fault = none → s.comp.halted = false →
        step s = exec (decode (Memory.read s.comp.mem s.comp.pc)) s) ∧
      (s.comp.fault = none → s.comp.halted = true →
        step s = .next { s with control := .returned (.halted []) }) ∧
      (∀ f, s.comp.fault = some f → step s = .next { s with control := .returned (.fault f) })

/-- `run(new_inputs)` by the host on a standalone Computer (R185, R186, R187): the inputs go to the tail of
the queue and a quantum begins; on a halted or a faulted Computer nothing changes and the result is no output,
or the recorded fault again. -/
def Obligations.RunBeginsOrReturns : Prop :=
  ∀ (s : State) (inputs : List Word) (rest : List HostCall),
    s.control = .caller → s.net = none → s.calls = .run inputs :: rest →
    (∀ f, s.comp.fault = some f →
        step s = .next { s with calls := rest, control := .returned (.fault f) }) ∧
      (s.comp.fault = none → s.comp.halted = true →
        step s = .next { s with calls := rest, control := .returned (.halted []) }) ∧
      (s.comp.fault = none → s.comp.halted = false →
        step s = .next { s with
          calls := rest
          control := .quantum
          callStart := s.comp.outLog.length
          comp := { s.comp with inq := s.comp.inq ++ inputs } })

/-- What a `run` call returns is the values emitted during it and no others (R188): with the log as it was at
the start of the call before them, they are the log. -/
def Obligations.RunReturnsItsOwnOutputs : Prop :=
  ∀ (s s' : State) (outs : List Word), s.control = .quantum → finished s.comp = none →
    step s = .next s' →
    s'.control = .returned (.suspended outs) ∨ s'.control = .returned (.halted outs) →
    s.comp.outLog.take s.callStart ++ outs = s'.comp.outLog

/-- Inputs not yet consumed do not influence execution (R189): a quantum of a standalone Computer that is
still in progress after `n` steps takes the same `n` steps with more inputs queued behind, and ends with
those inputs queued; where it is starved there, the later `run` call that supplies them finds the same
Computer. -/
def Obligations.LaterInputsDoNotChangeAQuantum : Prop :=
  ∀ (n : Nat) (s t : State) (ys : List Word), s.net = none → s.calls = [] → s.control = .quantum →
    Host.Core.run Sys2Proof.core n s = Host.Outcome.next t → t.control = .quantum →
    Host.Core.run Sys2Proof.core n (withInputs ys s) = Host.Outcome.next (withInputs ys t) ∧
      (finished t.comp = none → (withInputs ys t).comp = (startRun ys t).comp)

/-- `is_halted()` and `snapshot_memory()` (R192, R193): the flag, and cells 0 to `mem_size − 1`; neither
changes a Computer. -/
def Obligations.InspectionChangesNothing : Prop :=
  ∀ (s : State) (k : Nat) (c : Computer) (rest : List HostCall), s.control = .caller → activeNet s = none →
    (ring s)[k]? = some c →
    (s.calls = .isHalted k :: rest →
        step s = .next { s with calls := rest, replies := s.replies ++ [.isHalted c.halted] }) ∧
      (s.calls = .snapshot k :: rest →
        ∃ cells, step s = .next { s with calls := rest, replies := s.replies ++ [.memory cells] } ∧
          cells.length = c.memSize ∧
          ∀ a, a < c.memSize → cells[a]? = some (Memory.read c.mem a))

/-! ### Invariants of every step -/

/-- Every step keeps the invariant of every Computer of the ring (R22, R27, R54): `pc` at most `AMAX`, memory in
canonical form and below `mem_size`, `mem_size` at most `AMAX + 1`, no Computer both faulted and halted. -/
def Obligations.StepKeepsEveryComputerSound : Prop :=
  ∀ s s' : State, State.RingInv s → step s = .next s' → State.RingInv s'

/-- Every step keeps what `control` and the network say of the ring (R31, R35, R185, R217, R220): among others
that after a `run` call has returned its Computer is halted, starved or faulted, never ready. -/
def Obligations.StepKeepsCallsAndNetworkSound : Prop :=
  ∀ s s' : State, State.CallInv s → State.NetInv s → step s = .next s' → State.CallInv s' ∧ State.NetInv s'

/-- Every step keeps this: what the `run` calls on a standalone Computer that has not faulted have returned,
concatenated in call order, is its output log (R188, R29). A call that faults returns the fault and not the
values it emitted, which stay in the log (the spec's decision D7, log 10), so nothing is claimed once a fault
is recorded. -/
def Obligations.StepKeepsReportedOutputsTheLog : Prop :=
  ∀ s s' : State, State.LogInv s → step s = .next s' → State.LogInv s'

/-- The state after reset meets every invariant. -/
def Obligations.ResetMeetsTheInvariants : Prop :=
  State.RingInv State.reset ∧ State.CallInv State.reset ∧ State.NetInv State.reset ∧
    State.LogInv State.reset

/-- A Computer that has halted or faulted never changes again (R25, R176, R261): every step but the host's
construction of a new session leaves it as it is, at its ring position. -/
def Obligations.FinishedComputersNeverChange : Prop :=
  ∀ (s s' : State) (k : Nat) (c : Computer), s.constructs = false → step s = .next s' →
    (ring s)[k]? = some c → c.halted = true ∨ c.fault.isSome = true → (ring s')[k]? = some c

/-- Isolation (R32, R223): a step changes no Computer but the one at the cursor, and adds or removes none. -/
def Obligations.StepTouchesOnlyTheComputerAtTheCursor : Prop :=
  ∀ s s' : State, s.constructs = false → step s = .next s' →
    ringSize s' = ringSize s ∧ ∀ k : Nat, k ≠ cursor s → (ring s')[k]? = (ring s)[k]?

/-- Storage never shrinks (R27, R54) and the output log is only ever extended (R29), for every Computer of the
ring over every step of a session. -/
def Obligations.StorageAndLogOnlyGrow : Prop :=
  ∀ (s s' : State) (k : Nat) (c : Computer), s.constructs = false → step s = .next s' →
    (ring s)[k]? = some c →
    ∃ c', (ring s')[k]? = some c' ∧ c.memSize ≤ c'.memSize ∧ c.outLog <+: c'.outLog

/-! ### The Amplifier Network -/

/-- Construction (R210, R39): a Computer for each phase setting, each in the reset state of the same image, in
feedback mode with its phase setting queued (R214); cursor 0, carried signal 0, status running. An image that
`new` accepts and can be backed is assumed; a ring of size 0 is refused (D19). -/
def Obligations.NetworkConstruction : Prop :=
  ∀ (s : State) (image phases : List Word) (mode : NetMode) (rest : List HostCall), s.control = .caller →
    activeNet s = none → s.calls = .network image phases mode :: rest →
    (phases = [] → step s = .refused .emptyRing) ∧
      (phases ≠ [] → image.length ≤ amax + 1 → image.length ≤ s.cfg.memCap + 1 →
        ∃ s', step s = .next s' ∧ ringSize s' = phases.length ∧ cursor s' = 0 ∧
          (∀ (k : Nat) (p : Word), phases[k]? = some p →
            ∃ c, (ring s')[k]? = some c ∧ FreshWith c image (if mode = .feedback then [p] else [])) ∧
          s'.net = some { mode := mode, phase := phases, carried := 0, status := .running } ∧
          s'.control = .caller ∧ s'.calls = rest)

/-- The scheduler's call (R215, R216, R212): `run([carried])` in feedback mode, always;
`run([phase[cursor], carried])` in pipeline mode. On a Computer that has not finished it queues those values
and begins a quantum; on one that has, nothing changes and the call returns at once (R219). -/
def Obligations.SchedulerCallsRun : Prop :=
  ∀ (s : State) (net : Network) (inputs : List Word), s.control = .caller → s.net = some net →
    net.status = .running →
    (net.mode = .feedback ∧ inputs = [net.carried] ∨
      net.mode = .pipeline ∧ ∃ p, net.phase[cursor s]? = some p ∧ inputs = [p, net.carried]) →
    (s.comp.fault = none → s.comp.halted = false →
        step s = .next { s with
          control := .quantum
          callStart := s.comp.outLog.length
          comp := { s.comp with inq := s.comp.inq ++ inputs } }) ∧
      (s.comp.fault = none → s.comp.halted = true →
        step s = .next { s with control := .returned (.halted []) }) ∧
      (∀ f, s.comp.fault = some f → step s = .next { s with control := .returned (.fault f) })

/-- The rest of a feedback turn (R215 to R218): the carried signal becomes the last value of the call, if
there is one; if the Computer was the last of the ring and has halted, the network is done with the carried
signal; else the cursor moves to the next ring position, 0 after the last, and no Computer changes. -/
def Obligations.FeedbackTurn : Prop :=
  ∀ (s : State) (net : Network) (outs : List Word) (carried : Word), s.net = some net →
    net.status = .running → net.mode = .feedback →
    s.control = .returned (.suspended outs) ∨ s.control = .returned (.halted outs) →
    (outs = [] → carried = net.carried) → (∀ v, outs.getLast? = some v → carried = v) →
    ∃ s', step s = .next s' ∧ ring s' = ring s ∧ s'.control = .caller ∧ s'.calls = s.calls ∧
      (cursor s + 1 = ringSize s ∧ s.comp.halted = true →
        s'.net = some { net with carried := carried, status := .done carried } ∧
          s'.replies = s.replies ++ [.network (.done carried)]) ∧
      (¬ (cursor s + 1 = ringSize s ∧ s.comp.halted = true) →
        s'.net = some { net with carried := carried } ∧ cursor s' = (cursor s + 1) % ringSize s ∧
          s'.replies = s.replies)

/-- The rest of a pipeline stage (R212, R213): the sole output of a Computer that halted becomes the carried
signal, and after the last Computer the result; any other result but a fault leaves the network stuck. -/
def Obligations.PipelineStage : Prop :=
  ∀ (s : State) (net : Network) (r : RunResult), s.net = some net → net.status = .running →
    net.mode = .pipeline → s.control = .returned r →
    (∀ v, r = .halted [v] →
        ∃ s', step s = .next s' ∧ ring s' = ring s ∧ s'.control = .caller ∧
          (cursor s + 1 = ringSize s →
            s'.net = some { net with carried := v, status := .done v } ∧
              s'.replies = s.replies ++ [.network (.done v)]) ∧
          (cursor s + 1 < ringSize s →
            s'.net = some { net with carried := v } ∧ cursor s' = cursor s + 1 ∧
              s'.replies = s.replies)) ∧
      ((∀ v, r ≠ .halted [v]) → (∀ f, r ≠ .fault f) → step s = .fault (.pipelineStuck (cursor s)))

/-- A fault of any Computer aborts the whole network, which records the ring position and the fault (R220);
the host receives it (R228). -/
def Obligations.FaultAbortsTheNetwork : Prop :=
  ∀ (s : State) (net : Network) (f : FaultRecord), s.net = some net → net.status = .running →
    s.control = .returned (.fault f) →
    ∃ s', step s = .next s' ∧ s'.net = some { net with status := .aborted (cursor s) f } ∧
      ring s' = ring s ∧ cursor s' = cursor s ∧ s'.control = .caller ∧
      s'.replies = s.replies ++ [.network (.aborted (cursor s) f)]

/-- A network that is done or aborted schedules nothing more (R217, R220): until the host constructs something
else, no step changes its ring or its status. -/
def Obligations.EndedNetworkStaysAsItIs : Prop :=
  ∀ (s s' : State) (net : Network), State.CallInv s → s.net = some net → net.status ≠ .running →
    s.constructs = false → step s = .next s' →
    ring s' = ring s ∧ s'.net = some net ∧ s'.control = .caller
end

