-- ==== Sys2Proof/Laws/Word.lean ====
section
/-! SUPPORT. Words as signed integers: their range (`spec/00_scope.md` R12) and the range check `InWord`
(`41_arithmetic.md` R133). -/

namespace Sys2Proof

theorem Word.inRange (w : Word) : InRange w.toInt := by
  have h := BitVec.isLt w
  simp only [InRange, wordMin, wordMax, BitVec.toInt_eq_toNat_cond]
  split <;> omega

/-- An integer in range is the value of the word made of it. -/
theorem toInt_ofInt {v : Int} (h : InRange v) : (BitVec.ofInt 64 v).toInt = v := by
  obtain ⟨h1, h2⟩ := h
  simp only [wordMin, wordMax] at h1 h2
  rw [BitVec.toInt_ofInt, Int.bmod_eq_of_le] <;> omega

/-- A natural number in range is the value of the word made of it. -/
theorem toInt_ofNat {n : Nat} (h : n < 9223372036854775808) : (BitVec.ofNat 64 n).toInt = n := by
  have hn : n % 2 ^ 64 = n := Nat.mod_eq_of_lt (by omega)
  rw [BitVec.toInt_eq_toNat_cond, BitVec.toNat_ofNat, hn, if_pos (by omega)]

/-- A word is determined by its integer. -/
theorem ofInt_toInt (w : Word) : BitVec.ofInt 64 w.toInt = w := BitVec.ofInt_toInt

namespace Machine

theorem inWord_ok {v : Int} (h : InRange v) : inWord v = .ok (BitVec.ofInt 64 v) := if_pos h

theorem inWord_error {v : Int} (h : ¬ InRange v) : inWord v = .error ⟨.overflow, .value v⟩ := if_neg h

/-- Everything `inWord` can answer (R133). -/
theorem inWord_cases (v : Int) :
    (InRange v ∧ ∃ w, inWord v = .ok w ∧ w.toInt = v) ∨
      (¬ InRange v ∧ inWord v = .error ⟨.overflow, .value v⟩) := by
  by_cases h : InRange v
  · exact .inl ⟨h, _, inWord_ok h, toInt_ofInt h⟩
  · exact .inr ⟨h, inWord_error h⟩

@[simp] theorem truthWord_true : (truthWord true).toInt = 1 := by decide
@[simp] theorem truthWord_false : (truthWord false).toInt = 0 := by decide

/-- The result of LT is 1 or 0 (R160, R162). -/
theorem lessThan_toInt (a b : Word) : (lessThan a b).toInt = if a.toInt < b.toInt then 1 else 0 := by
  unfold lessThan; split <;> rename_i h <;> simp [h]

/-- The result of EQ is 1 or 0 (R161, R162). -/
theorem equalTo_toInt (a b : Word) : (equalTo a b).toInt = if a.toInt = b.toInt then 1 else 0 := by
  unfold equalTo; split <;> rename_i h <;> simp [h]

/-- Everything `jumpTarget` can answer (R152). -/
theorem jumpTarget_ok {b : Word} (h : 0 ≤ b.toInt) : jumpTarget b = .ok b.toInt.toNat :=
  if_neg (by omega)

theorem jumpTarget_error {b : Word} (h : b.toInt < 0) :
    jumpTarget b = .error ⟨.negativeAddress, .value b.toInt⟩ := if_pos h

/-- A jump target is a legal `pc` (R152: `b ≤ AMAX` always). -/
theorem jumpTarget_le {b : Word} {n : Nat} (h : jumpTarget b = .ok n) : n ≤ amax := by
  have hb := (Word.inRange b).2
  unfold jumpTarget at h
  split at h
  · cases h
  · simp only [Except.ok.injEq] at h
    simp only [wordMax] at hb
    simp only [amax]; omega

end Machine

end Sys2Proof
end

