-- ==== Sys2Proof/Laws/Decode.lean ====
section
/-! SUPPORT. The fields of encoded words (`spec/30_encoding.md` R81 to R85) and what decoding a word of given
fields gives. -/

namespace Sys2Proof

theorem encode1_toInt {op : Nat} (m0 : Digit) (h : op < 100) :
    (encode1 op m0).toInt = (op + 100 * m0.val : Nat) := toInt_ofNat (by omega)

theorem encode2_toInt {op : Nat} (m0 m1 : Digit) (h : op < 100) :
    (encode2 op m0 m1).toInt = (op + 100 * m0.val + 1000 * m1.val : Nat) := toInt_ofNat (by omega)

theorem encode3_toInt {op : Nat} (m0 m1 m2 : Digit) (h : op < 100) :
    (encode3 op m0 m1 m2).toInt = (op + 100 * m0.val + 1000 * m1.val + 10000 * m2.val : Nat) :=
  toInt_ofNat (by omega)

/-- The opcode and the digits of a non-negative word (R82, R83). -/
theorem fields_of_toInt {w : Word} {n : Nat} (h : w.toInt = (n : Int)) :
    opcodeField w = n % 100 ∧ ∀ i, modeDigit w i = Fin.ofNat 10 (n / (100 * 10 ^ i)) := by
  have : w.toInt.toNat = n := by omega
  simp [opcodeField, modeDigit, this]

/-- The truncated remainder of a number that is not negative is the floored one (R11). -/
theorem tmod_natCast (n : Nat) : (n : Int).tmod 100 = ((n % 100 : Nat) : Int) := by
  rw [Int.tmod_eq_emod_of_nonneg (by omega)]; omega

/-- The opcode values of the illegal space are their own truncated remainders (R11, R90). -/
theorem tmod_small {op : Int} (h1 : -100 < op) (h2 : op < 100) : op.tmod 100 = op := by
  by_cases h : 0 ≤ op
  · exact Int.tmod_eq_of_lt h h2
  · have := Int.tmod_eq_of_lt (a := -op) (b := 100) (by omega) (by omega)
    rw [Int.neg_tmod] at this
    omega

theorem digit_eq {n k : Nat} {m : Digit} (h : n / k % 10 = m.val) : Fin.ofNat 10 (n / k) = m :=
  Fin.ext h

/-- What `decode` does on a word that is not negative (R94), by its opcode field. -/
theorem decode_nonneg {w : Word} (h : 0 ≤ w.toInt) :
    decode w =
      match opcodeField w with
      | 1 => .add (modeDigit w 0) (modeDigit w 1) (modeDigit w 2)
      | 2 => .mul (modeDigit w 0) (modeDigit w 1) (modeDigit w 2)
      | 3 => .input (modeDigit w 0)
      | 4 => .output (modeDigit w 0)
      | 5 => .jt (modeDigit w 0) (modeDigit w 1)
      | 6 => .jf (modeDigit w 0) (modeDigit w 1)
      | 7 => .lt (modeDigit w 0) (modeDigit w 1) (modeDigit w 2)
      | 8 => .eq (modeDigit w 0) (modeDigit w 1) (modeDigit w 2)
      | 9 => .arb (modeDigit w 0)
      | 99 => .halt
      | op => .illegal op := if_neg (by omega)

/-- A negative word is illegal (R90). -/
theorem decode_negative {w : Word} (h : w.toInt < 0) : decode w = .illegal (w.toInt.tmod 100) := if_pos h

/-- What a word of each opcode decodes to (R88). -/
inductive DecodesTo (w : Word) : Instr → Prop
  | negative (h : w.toInt < 0) : DecodesTo w (.illegal (w.toInt.tmod 100))
  | add (h : 0 ≤ w.toInt) (ho : opcodeField w = 1) :
      DecodesTo w (.add (modeDigit w 0) (modeDigit w 1) (modeDigit w 2))
  | mul (h : 0 ≤ w.toInt) (ho : opcodeField w = 2) :
      DecodesTo w (.mul (modeDigit w 0) (modeDigit w 1) (modeDigit w 2))
  | input (h : 0 ≤ w.toInt) (ho : opcodeField w = 3) : DecodesTo w (.input (modeDigit w 0))
  | output (h : 0 ≤ w.toInt) (ho : opcodeField w = 4) : DecodesTo w (.output (modeDigit w 0))
  | jt (h : 0 ≤ w.toInt) (ho : opcodeField w = 5) : DecodesTo w (.jt (modeDigit w 0) (modeDigit w 1))
  | jf (h : 0 ≤ w.toInt) (ho : opcodeField w = 6) : DecodesTo w (.jf (modeDigit w 0) (modeDigit w 1))
  | lt (h : 0 ≤ w.toInt) (ho : opcodeField w = 7) :
      DecodesTo w (.lt (modeDigit w 0) (modeDigit w 1) (modeDigit w 2))
  | eq (h : 0 ≤ w.toInt) (ho : opcodeField w = 8) :
      DecodesTo w (.eq (modeDigit w 0) (modeDigit w 1) (modeDigit w 2))
  | arb (h : 0 ≤ w.toInt) (ho : opcodeField w = 9) : DecodesTo w (.arb (modeDigit w 0))
  | halt (h : 0 ≤ w.toInt) (ho : opcodeField w = 99) : DecodesTo w .halt
  | illegal (h : 0 ≤ w.toInt) (op : Nat) (ho : opcodeField w = op)
      (hn : op ∉ ([1, 2, 3, 4, 5, 6, 7, 8, 9, 99] : List Nat)) : DecodesTo w (.illegal op)

/-- Everything `decode` can answer (R94). -/
theorem decode_cases (w : Word) : DecodesTo w (decode w) := by
  by_cases h : w.toInt < 0
  · rw [decode_negative h]; exact .negative h
  · have h0 : 0 ≤ w.toInt := by omega
    rw [decode_nonneg h0]
    split <;> rename_i ho
    · exact .add h0 ho
    · exact .mul h0 ho
    · exact .input h0 ho
    · exact .output h0 ho
    · exact .jt h0 ho
    · exact .jf h0 ho
    · exact .lt h0 ho
    · exact .eq h0 ho
    · exact .arb h0 ho
    · exact .halt h0 ho
    · refine .illegal h0 _ rfl ?_
      simp only [List.mem_cons, List.not_mem_nil, or_false, not_or]
      exact ⟨by assumption, by assumption, by assumption, by assumption, by assumption, by assumption,
        by assumption, by assumption, by assumption, by assumption⟩

end Sys2Proof
end

