-- ==== Sys2Proof/Laws/Memory.lean ====
section
/-! SUPPORT. The laws of memory (`spec/20_memory.md` R52 to R54, R58): a read after a write, and that every
operation keeps the canonical form. The read laws hold of any list of cells, canonical or not. -/

namespace Sys2Proof.Machine

/-- Every cell of `m` lies above `a`. -/
def Memory.Above (a : Nat) (m : Memory) : Prop := ∀ c ∈ m, a < c.1

theorem Memory.wf_cons (c : Nat × Word) (m : Memory) :
    Memory.wf (c :: m) = true ↔ c.2 ≠ 0 ∧ Memory.Above c.1 m ∧ Memory.wf m = true := by
  induction m generalizing c with
  | nil => simp [Memory.wf, Memory.Above]
  | cons d m ih =>
    simp only [Memory.wf, Bool.and_eq_true, bne_iff_ne, ne_eq, decide_eq_true_eq, Memory.Above,
      List.mem_cons, forall_eq_or_imp]
    constructor
    · rintro ⟨⟨h0, h1⟩, h2⟩
      exact ⟨h0, ⟨h1, fun e he => h1.trans (((ih d).1 h2).2.1 e he)⟩, h2⟩
    · rintro ⟨h0, ⟨h1, -⟩, h2⟩
      exact ⟨⟨h0, h1⟩, h2⟩

theorem Memory.read_erase_same (m : Memory) (a : Nat) : Memory.read (Memory.erase m a) a = 0 := by
  induction m with
  | nil => rfl
  | cons c m ih =>
    by_cases h : c.1 = a
    · simpa [Memory.erase, h] using ih
    · simpa [Memory.erase, h, Memory.read, Ne.symm h] using ih

theorem Memory.read_erase_ne (m : Memory) {a b : Nat} (hb : b ≠ a) :
    Memory.read (Memory.erase m a) b = Memory.read m b := by
  induction m with
  | nil => rfl
  | cons c m ih =>
    by_cases h : c.1 = a
    · simpa [Memory.erase, h, Memory.read, hb] using ih
    · simp only [Memory.erase, ne_eq, h, not_false_eq_true, bne_iff_ne, List.filter_cons_of_pos, Memory.read]
      split
      · rfl
      · exact ih

theorem Memory.read_insert_ne (m : Memory) {a b : Nat} (v : Word) (hb : b ≠ a) :
    Memory.read (Memory.insert m a v) b = Memory.read m b := by
  induction m with
  | nil => simp [Memory.insert, Memory.read, hb]
  | cons c m ih =>
    simp only [Memory.insert]
    split
    · simp [Memory.read, hb]
    · simp only [Memory.read]; split <;> [rfl; exact ih]

theorem Memory.read_insert_same (m : Memory) (a : Nat) (v : Word) (ha : ∀ c ∈ m, c.1 ≠ a) :
    Memory.read (Memory.insert m a v) a = v := by
  induction m with
  | nil => simp [Memory.insert, Memory.read]
  | cons c m ih =>
    simp only [Memory.insert]
    split
    · simp [Memory.read]
    · simp only [Memory.read]
      rw [if_neg (Ne.symm (ha c (by simp))), ih fun d hd => ha d (by simp [hd])]

theorem Memory.erase_ne (m : Memory) (a : Nat) : ∀ c ∈ Memory.erase m a, c.1 ≠ a := by
  simp [Memory.erase]

/-- A read after a write to the same address gives the value written (R64 a). -/
@[simp] theorem Memory.read_write_same (m : Memory) (a : Nat) (v : Word) :
    Memory.read (Memory.write m a v) a = v := by
  unfold Memory.write
  split
  · rename_i h; rw [h, Memory.read_erase_same]
  · exact Memory.read_insert_same _ _ _ (Memory.erase_ne m a)

/-- A write leaves every other address alone (R64 a). -/
theorem Memory.read_write_ne (m : Memory) {a b : Nat} (v : Word) (hb : b ≠ a) :
    Memory.read (Memory.write m a v) b = Memory.read m b := by
  unfold Memory.write
  split
  · exact Memory.read_erase_ne m hb
  · rw [Memory.read_insert_ne _ _ hb, Memory.read_erase_ne m hb]

theorem Memory.read_write (m : Memory) (a b : Nat) (v : Word) :
    Memory.read (Memory.write m a v) b = if b = a then v else Memory.read m b := by
  split
  · rename_i h; rw [h, Memory.read_write_same]
  · rename_i h; exact Memory.read_write_ne m v h

theorem Memory.wf_erase {m : Memory} (a : Nat) (h : Memory.wf m = true) :
    Memory.wf (Memory.erase m a) = true := by
  induction m with
  | nil => rfl
  | cons c m ih =>
    obtain ⟨h0, h1, h2⟩ := (Memory.wf_cons c m).1 h
    by_cases hc : c.1 = a
    · simpa [Memory.erase, hc] using ih h2
    · have : Memory.erase (c :: m) a = c :: Memory.erase m a := by simp [Memory.erase, hc]
      rw [this, Memory.wf_cons]
      exact ⟨h0, fun d hd => h1 d (List.mem_of_mem_filter hd), ih h2⟩

theorem Memory.mem_insert {m : Memory} {a : Nat} {v : Word} {c : Nat × Word} :
    c ∈ Memory.insert m a v ↔ c = (a, v) ∨ c ∈ m := by
  induction m with
  | nil => simp [Memory.insert]
  | cons d m ih =>
    simp only [Memory.insert]
    split
    · simp
    · simp only [List.mem_cons, ih]; tauto

theorem Memory.wf_insert {m : Memory} {a : Nat} {v : Word} (h : Memory.wf m = true)
    (ha : ∀ c ∈ m, c.1 ≠ a) (hv : v ≠ 0) : Memory.wf (Memory.insert m a v) = true := by
  induction m with
  | nil => simpa [Memory.insert, Memory.wf] using hv
  | cons c m ih =>
    obtain ⟨h0, h1, h2⟩ := (Memory.wf_cons c m).1 h
    simp only [Memory.insert]
    split
    · rename_i hac
      rw [Memory.wf_cons]
      refine ⟨hv, ?_, h⟩
      intro d hd
      rcases List.mem_cons.1 hd with rfl | hd
      · exact hac
      · exact hac.trans (h1 d hd)
    · rename_i hac
      rw [Memory.wf_cons]
      refine ⟨h0, ?_, ih h2 fun d hd => ha d (by simp [hd])⟩
      intro d hd
      rcases Memory.mem_insert.1 hd with rfl | hd
      · have := ha c (by simp); simp only; omega
      · exact h1 d hd

/-- A write keeps the canonical form. -/
theorem Memory.wf_write {m : Memory} (a : Nat) (v : Word) (h : Memory.wf m = true) :
    Memory.wf (Memory.write m a v) = true := by
  unfold Memory.write
  split
  · exact Memory.wf_erase a h
  · rename_i hv; exact Memory.wf_insert (Memory.wf_erase a h) (Memory.erase_ne m a) hv

theorem Memory.wf_writeList {m : Memory} (a : Nat) (vs : List Word) (h : Memory.wf m = true) :
    Memory.wf (Memory.writeList m a vs) = true := by
  induction vs generalizing m a with
  | nil => exact h
  | cons v vs ih => exact ih (a + 1) (Memory.wf_write a v h)

theorem Memory.below_iff {m : Memory} {n : Nat} : Memory.below m n = true ↔ ∀ c ∈ m, c.1 < n := by
  simp [Memory.below]

/-- A write keeps every cell below the storage size it grows to (R27, R53). -/
theorem Memory.below_write {m : Memory} {n : Nat} (a : Nat) (v : Word) (h : Memory.below m n = true) :
    Memory.below (Memory.write m a v) (max n (a + 1)) = true := by
  rw [Memory.below_iff] at h ⊢
  intro c hc
  have hm : c = (a, v) ∨ c ∈ m := by
    unfold Memory.write at hc
    split at hc
    · exact .inr (List.mem_of_mem_filter hc)
    · exact (Memory.mem_insert.1 hc).imp_right List.mem_of_mem_filter
  rcases hm with rfl | hm
  · simp only; omega
  · have := h c hm; omega

/-- A cell at or beyond the storage size reads 0 (the invariant of R27). -/
theorem Memory.read_of_below {m : Memory} {n a : Nat} (h : Memory.below m n = true) (ha : n ≤ a) :
    Memory.read m a = 0 := by
  induction m with
  | nil => rfl
  | cons c m ih =>
    rw [Memory.below_iff] at h
    have hc := h c (by simp)
    simp only [Memory.read]
    rw [if_neg (by omega)]
    exact ih (Memory.below_iff.2 fun d hd => h d (by simp [hd]))

theorem Memory.ofImageAt_spec (k : Nat) (vs : List Word) :
    Memory.wf (Memory.ofImageAt k vs) = true ∧
      ∀ c ∈ Memory.ofImageAt k vs, k ≤ c.1 ∧ c.1 < k + vs.length := by
  induction vs generalizing k with
  | nil => simp [Memory.ofImageAt, Memory.wf]
  | cons v vs ih =>
    obtain ⟨hw, hb⟩ := ih (k + 1)
    simp only [Memory.ofImageAt, List.length_cons]
    split
    · exact ⟨hw, fun c hc => by have := hb c hc; omega⟩
    · rename_i hv
      refine ⟨(Memory.wf_cons _ _).2 ⟨hv, fun c hc => by have := hb c hc; simp only; omega, hw⟩, ?_⟩
      intro c hc
      rcases List.mem_cons.1 hc with rfl | hc
      · simp only; omega
      · have := hb c hc; omega

/-- An image is loaded in canonical form. -/
theorem Memory.wf_ofImage (image : List Word) : Memory.wf (Memory.ofImage image) = true :=
  (Memory.ofImageAt_spec 0 image).1

/-- An image's cells lie below its length (R38). -/
theorem Memory.below_ofImage (image : List Word) :
    Memory.below (Memory.ofImage image) image.length = true :=
  Memory.below_iff.2 fun c hc => by have := (Memory.ofImageAt_spec 0 image).2 c hc; omega

theorem Memory.read_ofImageAt (k : Nat) (vs : List Word) (a : Nat) :
    Memory.read (Memory.ofImageAt k vs) a = if k ≤ a then vs.getD (a - k) 0 else 0 := by
  induction vs generalizing k with
  | nil => simp [Memory.ofImageAt, Memory.read]
  | cons v vs ih =>
    have step : Memory.read (Memory.ofImageAt k (v :: vs)) a =
        if a = k then v else Memory.read (Memory.ofImageAt (k + 1) vs) a := by
      simp only [Memory.ofImageAt]
      split
      · rename_i hv
        by_cases hak : a = k
        · rw [ih]; simp [hak, hv]
        · simp [hak]
      · simp [Memory.read]
    rw [step, ih]
    by_cases hak : a = k
    · simp [hak]
    · by_cases hlt : k ≤ a
      · have : a - k = (a - (k + 1)) + 1 := by omega
        have h1 : k + 1 ≤ a := by omega
        simp only [hak, if_false, h1, if_true, hlt, this, List.getD_cons_succ]
      · have h1 : ¬ k + 1 ≤ a := by omega
        simp [hak, h1, hlt]

/-- Word `a` of the image is at address `a`; every other address reads 0 (R38, R58). -/
theorem Memory.read_ofImage (image : List Word) (a : Nat) :
    Memory.read (Memory.ofImage image) a = image.getD a 0 := by
  simp [Memory.ofImage, Memory.read_ofImageAt]

/-- Memory at reset is in canonical form: nothing is listed. -/
theorem Memory.reset_wf : Memory.wf State.reset.comp.mem = true := rfl

end Sys2Proof.Machine
end

