-- ==== Sys2Proof/Laws/State.lean ====
section
/-! SUPPORT. One lemma per field per update of a Computer or of the state, so that no later proof unfolds a
record update. -/

namespace Sys2Proof.Machine

section MemWrite
variable (c : Computer) (a : Nat) (v : Word)
@[simp] theorem memWrite_pc : (memWrite c a v).pc = c.pc := rfl
@[simp] theorem memWrite_rb : (memWrite c a v).rb = c.rb := rfl
@[simp] theorem memWrite_halted : (memWrite c a v).halted = c.halted := rfl
@[simp] theorem memWrite_fault : (memWrite c a v).fault = c.fault := rfl
@[simp] theorem memWrite_mem : (memWrite c a v).mem = Memory.write c.mem a v := rfl
@[simp] theorem memWrite_memSize : (memWrite c a v).memSize = max c.memSize (a + 1) := rfl
@[simp] theorem memWrite_inq : (memWrite c a v).inq = c.inq := rfl
@[simp] theorem memWrite_outLog : (memWrite c a v).outLog = c.outLog := rfl
end MemWrite

section EndCall
variable (r : RunResult) (s : State)
@[simp] theorem endCall_cfg : (endCall r s).cfg = s.cfg := rfl
@[simp] theorem endCall_before : (endCall r s).before = s.before := rfl
@[simp] theorem endCall_comp : (endCall r s).comp = s.comp := rfl
@[simp] theorem endCall_after : (endCall r s).after = s.after := rfl
@[simp] theorem endCall_net : (endCall r s).net = s.net := rfl
@[simp] theorem endCall_control : (endCall r s).control = .returned r := rfl
@[simp] theorem endCall_callStart : (endCall r s).callStart = s.callStart := rfl
@[simp] theorem endCall_calls : (endCall r s).calls = s.calls := rfl
@[simp] theorem endCall_replies : (endCall r s).replies = s.replies := rfl
end EndCall

section Suspend
variable (s : State)
@[simp] theorem suspend_cfg : (suspend s).cfg = s.cfg := rfl
@[simp] theorem suspend_before : (suspend s).before = s.before := rfl
@[simp] theorem suspend_comp : (suspend s).comp = s.comp := rfl
@[simp] theorem suspend_after : (suspend s).after = s.after := rfl
@[simp] theorem suspend_net : (suspend s).net = s.net := rfl
@[simp] theorem suspend_control : (suspend s).control = .returned (.suspended (callOuts s)) := rfl
@[simp] theorem suspend_callStart : (suspend s).callStart = s.callStart := rfl
@[simp] theorem suspend_calls : (suspend s).calls = s.calls := rfl
@[simp] theorem suspend_replies : (suspend s).replies = s.replies := rfl
end Suspend

section Raised
variable (op : Int) (t : Trap) (s : State)
@[simp] theorem raised_cfg : (raised op t s).cfg = s.cfg := rfl
@[simp] theorem raised_before : (raised op t s).before = s.before := rfl
@[simp] theorem raised_comp :
    (raised op t s).comp = { s.comp with fault := some (faultRecord op t s) } := rfl
@[simp] theorem raised_after : (raised op t s).after = s.after := rfl
@[simp] theorem raised_net : (raised op t s).net = s.net := rfl
@[simp] theorem raised_control : (raised op t s).control = .returned (.fault (faultRecord op t s)) := rfl
@[simp] theorem raised_callStart : (raised op t s).callStart = s.callStart := rfl
@[simp] theorem raised_calls : (raised op t s).calls = s.calls := rfl
@[simp] theorem raised_replies : (raised op t s).replies = s.replies := rfl
@[simp] theorem faultRecord_pc : (faultRecord op t s).pc = s.comp.pc := rfl
@[simp] theorem faultRecord_opcode : (faultRecord op t s).opcode = op := rfl
@[simp] theorem faultRecord_kind : (faultRecord op t s).kind = t.kind := rfl
@[simp] theorem faultRecord_info : (faultRecord op t s).info = t.info := rfl
end Raised

section Answer
variable (r : HostReply) (s : State)
@[simp] theorem answer_cfg : (answer r s).cfg = s.cfg := rfl
@[simp] theorem answer_before : (answer r s).before = s.before := rfl
@[simp] theorem answer_comp : (answer r s).comp = s.comp := rfl
@[simp] theorem answer_after : (answer r s).after = s.after := rfl
@[simp] theorem answer_net : (answer r s).net = s.net := rfl
@[simp] theorem answer_control : (answer r s).control = .caller := rfl
@[simp] theorem answer_callStart : (answer r s).callStart = s.callStart := rfl
@[simp] theorem answer_calls : (answer r s).calls = s.calls := rfl
@[simp] theorem answer_replies : (answer r s).replies = s.replies ++ [r] := rfl
end Answer

section EndNetwork
variable (net : Network) (st : NetStatus) (s : State)
@[simp] theorem endNetwork_cfg : (endNetwork net st s).cfg = s.cfg := rfl
@[simp] theorem endNetwork_before : (endNetwork net st s).before = s.before := rfl
@[simp] theorem endNetwork_comp : (endNetwork net st s).comp = s.comp := rfl
@[simp] theorem endNetwork_after : (endNetwork net st s).after = s.after := rfl
@[simp] theorem endNetwork_net : (endNetwork net st s).net = some { net with status := st } := rfl
@[simp] theorem endNetwork_control : (endNetwork net st s).control = .caller := rfl
@[simp] theorem endNetwork_callStart : (endNetwork net st s).callStart = s.callStart := rfl
@[simp] theorem endNetwork_calls : (endNetwork net st s).calls = s.calls := rfl
@[simp] theorem endNetwork_replies :
    (endNetwork net st s).replies = s.replies ++ [.network st] := rfl
end EndNetwork

/-! `advance` moves only the cut of the ring. -/

section Advance
variable (s : State)
@[simp] theorem advance_cfg : (advance s).cfg = s.cfg := by
  unfold advance; split <;> (try split) <;> rfl
@[simp] theorem advance_net : (advance s).net = s.net := by
  unfold advance; split <;> (try split) <;> rfl
@[simp] theorem advance_control : (advance s).control = s.control := by
  unfold advance; split <;> (try split) <;> rfl
@[simp] theorem advance_callStart : (advance s).callStart = s.callStart := by
  unfold advance; split <;> (try split) <;> rfl
@[simp] theorem advance_calls : (advance s).calls = s.calls := by
  unfold advance; split <;> (try split) <;> rfl
@[simp] theorem advance_replies : (advance s).replies = s.replies := by
  unfold advance; split <;> (try split) <;> rfl

/-- Every Computer keeps its ring position when the cursor moves. -/
@[simp] theorem advance_ring : ring (advance s) = ring s := by
  unfold advance ring
  split
  · rename_i c cs h; simp [h]
  · rename_i h
    split
    · simp [h]
    · rename_i c cs hb; simp [h, hb]

/-- The cursor moves to the next ring position, wrapping to 0 after the last (R215). -/
theorem advance_cursor : cursor (advance s) = (cursor s + 1) % ringSize s := by
  unfold advance cursor ringSize ring
  split
  · rename_i c cs h
    simp only [h, List.length_append, List.length_cons, List.length_nil]
    rw [Nat.mod_eq_of_lt (by omega)]
  · rename_i h
    split
    · rename_i hb; simp [h, hb]
    · rename_i c cs hb; simp [h, hb]
end Advance

/-! The ring and what is computed from it see only the three ring fields. -/

@[simp] theorem ring_endCall (r : RunResult) (s : State) : ring (endCall r s) = ring s := rfl
@[simp] theorem ring_answer (r : HostReply) (s : State) : ring (answer r s) = ring s := rfl
@[simp] theorem ring_endNetwork (net : Network) (st : NetStatus) (s : State) :
    ring (endNetwork net st s) = ring s := rfl

/-- The Computer at the cursor is the one at ring position `cursor`. -/
@[simp] theorem ring_cursor (s : State) : (ring s)[cursor s]? = some s.comp := by
  simp [ring, cursor]

theorem cursor_lt_ringSize (s : State) : cursor s < ringSize s := by
  simp [cursor, ringSize, ring]

end Sys2Proof.Machine
end

