-- ==== Sys2Proof/Laws/Ops.lean ====
section
/-! SUPPORT. What each shared operation can do, said once: address checks, reads, `NextPc`, taking a fault,
the commits, and the resolution of parameters. -/

namespace Sys2Proof.Machine

/-! ### Addresses and reads -/

theorem checkAddr_ok {ea : Int} (h0 : 0 ≤ ea) (h1 : ea ≤ amax) : checkAddr ea = .ok ea.toNat := by
  unfold checkAddr; rw [if_neg (by omega), if_neg (by omega)]

theorem checkAddr_negative {ea : Int} (h : ea < 0) :
    checkAddr ea = .error ⟨.negativeAddress, .value ea⟩ := if_pos h

theorem checkAddr_above {ea : Int} (h : (amax : Int) < ea) :
    checkAddr ea = .error ⟨.overflow, .value ea⟩ := by
  unfold checkAddr; rw [if_neg (by simp only [amax] at h; omega), if_pos h]

/-- Everything an address check that passes says (R55, R56). -/
theorem checkAddr_eq_ok {ea : Int} {n : Nat} :
    checkAddr ea = .ok n ↔ 0 ≤ ea ∧ ea ≤ amax ∧ ea = n := by
  unfold checkAddr
  split
  · simp only [reduceCtorEq, false_iff]; omega
  · split
    · simp only [reduceCtorEq, false_iff]; omega
    · simp only [Except.ok.injEq]; omega

theorem checkAddr_le {ea : Int} {n : Nat} (h : checkAddr ea = .ok n) : n ≤ amax := by
  obtain ⟨-, h1, h2⟩ := checkAddr_eq_ok.1 h
  omega

theorem memRead_ok {c : Computer} {a : Int} (h0 : 0 ≤ a) (h1 : a ≤ amax) :
    memRead c a = .ok (Memory.read c.mem a.toNat) := by
  simp [memRead, checkAddr_ok h0 h1]

theorem memRead_negative {c : Computer} {a : Int} (h : a < 0) :
    memRead c a = .error ⟨.negativeAddress, .value a⟩ := by
  simp [memRead, checkAddr_negative h]

theorem memRead_above {c : Computer} {a : Int} (h : (amax : Int) < a) :
    memRead c a = .error ⟨.overflow, .value a⟩ := by
  simp [memRead, checkAddr_above h]

/-! ### The program counter -/

theorem nextPc_ok {c : Computer} {k : Nat} (h : c.pc + k ≤ amax) : nextPc c k = .ok (c.pc + k) := if_pos h

theorem nextPc_error {c : Computer} {k : Nat} (h : amax < c.pc + k) :
    nextPc c k = .error ⟨.overflow, .value ((c.pc + k : Nat) : Int)⟩ := if_neg (by omega)

theorem nextPc_eq_ok {c : Computer} {k n : Nat} :
    nextPc c k = .ok n ↔ c.pc + k ≤ amax ∧ n = c.pc + k := by
  unfold nextPc
  split
  · rename_i h; simp only [Except.ok.injEq, h, true_and]; exact eq_comm
  · rename_i h; simp [h]

/-! ### Taking a fault -/

@[simp] theorem orRaise_ok {α : Type} (op : Int) (s : State) (a : α)
    (k : α → Host.Outcome State Fault Refusal) : orRaise op s (.ok a) k = k a := rfl

@[simp] theorem orRaise_error {α : Type} (op : Int) (s : State) (t : Trap)
    (k : α → Host.Outcome State Fault Refusal) : orRaise op s (.error t) k = .next (raised op t s) := rfl

/-- Everything that can come of a check: its fault is taken, or the instruction goes on with its value. -/
theorem orRaise_next {α : Type} {op : Int} {s s' : State} {r : Except Trap α}
    {k : α → Host.Outcome State Fault Refusal} (h : orRaise op s r k = .next s') :
    (∃ t, r = .error t ∧ s' = raised op t s) ∨ ∃ a, r = .ok a ∧ k a = .next s' := by
  cases r with
  | error t => simp only [orRaise_error, Host.Outcome.next.injEq] at h; exact .inl ⟨t, rfl, h.symm⟩
  | ok a => exact .inr ⟨a, rfl, h⟩

/-! ### Commits -/

theorem store_ok {t : Nat} {v : Word} {n : Nat} {s : State} (h : t ≤ s.cfg.memCap) :
    store t v n s = .next { s with comp := { memWrite s.comp t v with pc := n } } :=
  if_neg (by omega)

/-- Everything a commit of a store can do: it stores, or the implementation's capacity is exceeded. -/
theorem store_next {t : Nat} {v : Word} {n : Nat} {s s' : State} (h : store t v n s = .next s') :
    t ≤ s.cfg.memCap ∧ s' = { s with comp := { memWrite s.comp t v with pc := n } } := by
  unfold store at h
  split at h
  · cases h
  · simp only [Host.Outcome.next.injEq] at h; exact ⟨by omega, h.symm⟩

theorem setPc_next {n : Nat} {s s' : State} (h : setPc n s = .next s') :
    s' = { s with comp := { s.comp with pc := n } } := by
  simp only [setPc, Host.Outcome.next.injEq] at h; exact h.symm

/-! ### Parameters -/

theorem modeOf_position {d : Digit} : modeOf d = some .position ↔ d = 0 := by
  revert d; decide

theorem modeOf_immediate {d : Digit} : modeOf d = some .immediate ↔ d = 1 := by
  revert d; decide

theorem modeOf_relative {d : Digit} : modeOf d = some .relative ↔ d = 2 := by
  revert d; decide

theorem modeOf_none {d : Digit} : modeOf d = none ↔ 3 ≤ d := by
  revert d; decide

theorem paramWord_ok {c : Computer} {i : Nat} (h : c.pc + 1 + i ≤ amax) :
    paramWord c i = .ok (Memory.read c.mem (c.pc + 1 + i)) := by
  unfold paramWord; rw [memRead_ok (by omega) (by omega)]; rfl

/-- A target address that resolves is a legal address (R118). -/
theorem writeAddr_le {c : Computer} {i : Nat} {d : Digit} {t : Nat} (h : writeAddr c i d = .ok t) :
    t ≤ amax := by
  unfold writeAddr at h
  split at h
  · cases h
  · cases h
  all_goals
    split at h
    · cases h
    · exact checkAddr_le h

/-- Everything the resolution of two operands can answer, in index order (R120). -/
theorem readTwo_eq_ok {c : Computer} {m0 m1 : Digit} {a b : Word} :
    readTwo c m0 m1 = .ok (a, b) ↔ readParam c 0 m0 = .ok a ∧ readParam c 1 m1 = .ok b := by
  unfold readTwo
  cases readParam c 0 m0 <;> cases readParam c 1 m1 <;> simp

/-- Everything the resolution of two operands and a target can answer, in index order (R120). -/
theorem readTwoTarget_eq_ok {c : Computer} {m0 m1 m2 : Digit} {a b : Word} {t : Nat} :
    readTwoTarget c m0 m1 m2 = .ok (a, b, t) ↔
      readParam c 0 m0 = .ok a ∧ readParam c 1 m1 = .ok b ∧ writeAddr c 2 m2 = .ok t := by
  unfold readTwoTarget readTwo
  cases readParam c 0 m0 <;> cases readParam c 1 m1 <;> cases writeAddr c 2 m2 <;> simp

/-- Resolution of a read parameter looks at `pc`, `rb` and memory only (R114). -/
theorem readParam_congr {c d : Computer} (hpc : c.pc = d.pc) (hrb : c.rb = d.rb) (hm : c.mem = d.mem)
    (i : Nat) (m : Digit) : readParam c i m = readParam d i m := by
  simp only [readParam, paramWord, memRead, hpc, hrb, hm]

/-- Resolution of a write parameter looks at `pc`, `rb` and memory only (R118). -/
theorem writeAddr_congr {c d : Computer} (hpc : c.pc = d.pc) (hrb : c.rb = d.rb) (hm : c.mem = d.mem)
    (i : Nat) (m : Digit) : writeAddr c i m = writeAddr d i m := by
  simp only [writeAddr, paramWord, memRead, hpc, hrb, hm]

end Sys2Proof.Machine
end

