-- ==== Sys2Proof/Laws/Exec.lean ====
section
/-! SUPPORT. What each instruction shape can do, said once: if it answers a next state, then one of these
cases holds. -/

namespace Sys2Proof.Machine

/-- ADD, MUL, LT, EQ: a fault is taken, or the result is stored at the target and `pc` advances by 4. -/
theorem binary_next {op : Int} {m0 m1 m2 : Digit} {f : Word → Word → Except Trap Word} {s s' : State}
    (h : binary op m0 m1 m2 f s = .next s') :
    (∃ t, s' = raised op t s) ∨
      ∃ a b t v, readParam s.comp 0 m0 = .ok a ∧ readParam s.comp 1 m1 = .ok b ∧
        writeAddr s.comp 2 m2 = .ok t ∧ f a b = .ok v ∧ s.comp.pc + 4 ≤ amax ∧ t ≤ s.cfg.memCap ∧
        s' = { s with comp := { memWrite s.comp t v with pc := s.comp.pc + 4 } } := by
  unfold binary at h
  rcases orRaise_next h with ⟨t, -, rfl⟩ | ⟨⟨a, b, t⟩, hr, h⟩
  · exact .inl ⟨t, rfl⟩
  rcases orRaise_next h with ⟨t, -, rfl⟩ | ⟨v, hv, h⟩
  · exact .inl ⟨t, rfl⟩
  rcases orRaise_next h with ⟨t, -, rfl⟩ | ⟨n, hn, h⟩
  · exact .inl ⟨t, rfl⟩
  obtain ⟨hcap, rfl⟩ := store_next h
  obtain ⟨ha, hb, ht⟩ := readTwoTarget_eq_ok.1 hr
  obtain ⟨hpc, rfl⟩ := nextPc_eq_ok.1 hn
  exact .inr ⟨a, b, t, v, ha, hb, ht, hv, hpc, hcap, rfl⟩

/-- JT, JF: a fault is taken, or `pc` becomes the target or advances by 3. -/
theorem jump_next {op : Int} {m0 m1 : Digit} {taken : Word → Bool} {s s' : State}
    (h : jump op m0 m1 taken s = .next s') :
    (∃ t, s' = raised op t s) ∨
      ∃ a b n, readParam s.comp 0 m0 = .ok a ∧ readParam s.comp 1 m1 = .ok b ∧
        (taken a = true ∧ 0 ≤ b.toInt ∧ n = b.toInt.toNat ∨
          taken a = false ∧ s.comp.pc + 3 ≤ amax ∧ n = s.comp.pc + 3) ∧
        s' = { s with comp := { s.comp with pc := n } } := by
  unfold jump at h
  rcases orRaise_next h with ⟨t, -, rfl⟩ | ⟨⟨a, b⟩, hr, h⟩
  · exact .inl ⟨t, rfl⟩
  obtain ⟨ha, hb⟩ := readTwo_eq_ok.1 hr
  simp only at h
  split at h
  · rename_i htk
    rcases orRaise_next h with ⟨t, -, rfl⟩ | ⟨n, hn, h⟩
    · exact .inl ⟨t, rfl⟩
    have hn' : 0 ≤ b.toInt ∧ n = b.toInt.toNat := by
      unfold jumpTarget at hn
      split at hn
      · cases hn
      · simp only [Except.ok.injEq] at hn; exact ⟨by omega, hn.symm⟩
    exact .inr ⟨a, b, n, ha, hb, .inl ⟨htk, hn'.1, hn'.2⟩, setPc_next h⟩
  · rename_i htk
    rcases orRaise_next h with ⟨t, -, rfl⟩ | ⟨n, hn, h⟩
    · exact .inl ⟨t, rfl⟩
    obtain ⟨hpc, rfl⟩ := nextPc_eq_ok.1 hn
    exact .inr ⟨a, b, _, ha, hb, .inr ⟨by simpa using htk, hpc, rfl⟩, setPc_next h⟩

/-- IN: it suspends, a fault is taken, or the oldest value is stored at the target and `pc` advances by 2. -/
theorem execInput_next {m0 : Digit} {s s' : State} (h : execInput m0 s = .next s') :
    (s.comp.inq = [] ∧ s' = suspend s) ∨ (∃ t, s' = raised 3 t s) ∨
      ∃ v rest t, s.comp.inq = v :: rest ∧ writeAddr s.comp 0 m0 = .ok t ∧ s.comp.pc + 2 ≤ amax ∧
        t ≤ s.cfg.memCap ∧
        s' = { s with comp := { memWrite { s.comp with inq := rest } t v with pc := s.comp.pc + 2 } } := by
  unfold execInput at h
  split at h
  · rename_i hq
    simp only [Host.Outcome.next.injEq] at h
    exact .inl ⟨hq, h.symm⟩
  · rename_i v rest hq
    rcases orRaise_next h with ⟨t, -, rfl⟩ | ⟨t, ht, h⟩
    · exact .inr (.inl ⟨t, rfl⟩)
    rcases orRaise_next h with ⟨t, -, rfl⟩ | ⟨n, hn, h⟩
    · exact .inr (.inl ⟨t, rfl⟩)
    obtain ⟨hcap, rfl⟩ := store_next h
    obtain ⟨hpc, rfl⟩ := nextPc_eq_ok.1 hn
    exact .inr (.inr ⟨v, rest, t, hq, ht, hpc, hcap, rfl⟩)

/-- OUT: a fault is taken, or the operand is emitted and `pc` advances by 2. -/
theorem execOutput_next {m0 : Digit} {s s' : State} (h : execOutput m0 s = .next s') :
    (∃ t, s' = raised 4 t s) ∨
      ∃ a, readParam s.comp 0 m0 = .ok a ∧ s.comp.pc + 2 ≤ amax ∧
        s' = { s with comp := { s.comp with outLog := s.comp.outLog ++ [a], pc := s.comp.pc + 2 } } := by
  unfold execOutput at h
  rcases orRaise_next h with ⟨t, -, rfl⟩ | ⟨a, ha, h⟩
  · exact .inl ⟨t, rfl⟩
  rcases orRaise_next h with ⟨t, -, rfl⟩ | ⟨n, hn, h⟩
  · exact .inl ⟨t, rfl⟩
  obtain ⟨hpc, rfl⟩ := nextPc_eq_ok.1 hn
  exact .inr ⟨a, ha, hpc, setPc_next h⟩

/-- ARB: a fault is taken, or `rb` becomes the exact sum and `pc` advances by 2. -/
theorem execArb_next {m0 : Digit} {s s' : State} (h : execArb m0 s = .next s') :
    (∃ t, s' = raised 9 t s) ∨
      ∃ a v, readParam s.comp 0 m0 = .ok a ∧ inWord (s.comp.rb.toInt + a.toInt) = .ok v ∧
        s.comp.pc + 2 ≤ amax ∧ s' = { s with comp := { s.comp with rb := v, pc := s.comp.pc + 2 } } := by
  unfold execArb at h
  rcases orRaise_next h with ⟨t, -, rfl⟩ | ⟨a, ha, h⟩
  · exact .inl ⟨t, rfl⟩
  rcases orRaise_next h with ⟨t, -, rfl⟩ | ⟨v, hv, h⟩
  · exact .inl ⟨t, rfl⟩
  rcases orRaise_next h with ⟨t, -, rfl⟩ | ⟨n, hn, h⟩
  · exact .inl ⟨t, rfl⟩
  obtain ⟨hpc, rfl⟩ := nextPc_eq_ok.1 hn
  exact .inr ⟨a, v, ha, hv, hpc, setPc_next h⟩

/-- What an instruction that completes normally can have done to the machine: only the items of the Computer
at the cursor that its rule names, and, for HALT and a starved IN, the end of the `run` call. -/
inductive Effect (i : Instr) (s : State) : State → Prop
  /-- The instruction raised a fault (R183). -/
  | raised (t : Trap) : Effect i s (raised i.opcode t s)
  /-- ADD, MUL, LT, EQ stored `v` at `t` (R130, R131, R160, R161). -/
  | binary (m0 m1 m2 : Digit) (t : Nat) (v : Word)
      (hi : i = .add m0 m1 m2 ∨ i = .mul m0 m1 m2 ∨ i = .lt m0 m1 m2 ∨ i = .eq m0 m1 m2)
      (ht : writeAddr s.comp 2 m2 = .ok t) (hpc : s.comp.pc + 4 ≤ amax) (hcap : t ≤ s.cfg.memCap) :
      Effect i s { s with comp := { memWrite s.comp t v with pc := s.comp.pc + 4 } }
  /-- IN suspended (R142). -/
  | suspended (m0 : Digit) (hi : i = .input m0) (hq : s.comp.inq = []) : Effect i s (suspend s)
  /-- IN consumed `v` (R140). -/
  | consumed (m0 : Digit) (t : Nat) (v : Word) (rest : List Word) (hi : i = .input m0)
      (hq : s.comp.inq = v :: rest) (ht : writeAddr s.comp 0 m0 = .ok t) (hpc : s.comp.pc + 2 ≤ amax)
      (hcap : t ≤ s.cfg.memCap) :
      Effect i s { s with comp := { memWrite { s.comp with inq := rest } t v with pc := s.comp.pc + 2 } }
  /-- OUT emitted `a` (R141). -/
  | emitted (m0 : Digit) (a : Word) (hi : i = .output m0) (hpc : s.comp.pc + 2 ≤ amax) :
      Effect i s { s with comp := { s.comp with outLog := s.comp.outLog ++ [a], pc := s.comp.pc + 2 } }
  /-- JT or JF went to `n` (R150, R151). -/
  | jumped (m0 m1 : Digit) (n : Nat) (hi : i = .jt m0 m1 ∨ i = .jf m0 m1) (hn : n ≤ amax) :
      Effect i s { s with comp := { s.comp with pc := n } }
  /-- ARB set `rb` (R170). -/
  | based (m0 : Digit) (v : Word) (hi : i = .arb m0) (hpc : s.comp.pc + 2 ≤ amax) :
      Effect i s { s with comp := { s.comp with rb := v, pc := s.comp.pc + 2 } }
  /-- HALT set `halted` and ended the call (R175). -/
  | halted (hi : i = .halt) :
      Effect i s (endCall (.halted (callOuts s)) { s with comp := { s.comp with halted := true } })

/-- Everything an instruction can do when it answers a next state. -/
theorem exec_effect {i : Instr} {s s' : State} (h : exec i s = .next s') : Effect i s s' := by
  have target {b : Word} (hb : 0 ≤ b.toInt) : b.toInt.toNat ≤ amax := jumpTarget_le (jumpTarget_ok hb)
  cases i with
  | add m0 m1 m2 =>
    rcases binary_next h with ⟨t, rfl⟩ | ⟨a, b, t, v, -, -, ht, -, hpc, hcap, rfl⟩
    · exact .raised t
    · exact .binary m0 m1 m2 t v (.inl rfl) ht hpc hcap
  | mul m0 m1 m2 =>
    rcases binary_next h with ⟨t, rfl⟩ | ⟨a, b, t, v, -, -, ht, -, hpc, hcap, rfl⟩
    · exact .raised t
    · exact .binary m0 m1 m2 t v (.inr (.inl rfl)) ht hpc hcap
  | lt m0 m1 m2 =>
    rcases binary_next (f := fun a b => .ok (lessThan a b)) h with ⟨t, rfl⟩ | ⟨a, b, t, v, -, -, ht, -, hpc, hcap, rfl⟩
    · exact .raised t
    · exact .binary m0 m1 m2 t v (.inr (.inr (.inl rfl))) ht hpc hcap
  | eq m0 m1 m2 =>
    rcases binary_next (f := fun a b => .ok (equalTo a b)) h with ⟨t, rfl⟩ | ⟨a, b, t, v, -, -, ht, -, hpc, hcap, rfl⟩
    · exact .raised t
    · exact .binary m0 m1 m2 t v (.inr (.inr (.inr rfl))) ht hpc hcap
  | input m0 =>
    rcases execInput_next h with ⟨hq, rfl⟩ | ⟨t, rfl⟩ | ⟨v, rest, t, hq, ht, hpc, hcap, rfl⟩
    · exact .suspended m0 rfl hq
    · exact .raised t
    · exact .consumed m0 t v rest rfl hq ht hpc hcap
  | output m0 =>
    rcases execOutput_next h with ⟨t, rfl⟩ | ⟨a, -, hpc, rfl⟩
    · exact .raised t
    · exact .emitted m0 a rfl hpc
  | jt m0 m1 =>
    rcases jump_next h with ⟨t, rfl⟩ | ⟨a, b, n, -, -, ⟨-, hb, rfl⟩ | ⟨-, hpc, rfl⟩, rfl⟩
    · exact .raised t
    · exact .jumped m0 m1 _ (.inl rfl) (target hb)
    · exact .jumped m0 m1 _ (.inl rfl) hpc
  | jf m0 m1 =>
    rcases jump_next (taken := fun a => !isNonZero a) h with ⟨t, rfl⟩ | ⟨a, b, n, -, -, ⟨-, hb, rfl⟩ | ⟨-, hpc, rfl⟩, rfl⟩
    · exact .raised t
    · exact .jumped m0 m1 _ (.inr rfl) (target hb)
    · exact .jumped m0 m1 _ (.inr rfl) hpc
  | arb m0 =>
    rcases execArb_next h with ⟨t, rfl⟩ | ⟨a, v, -, -, hpc, rfl⟩
    · exact .raised t
    · exact .based m0 v rfl hpc
  | halt =>
    cases h
    exact .halted rfl
  | illegal op =>
    cases h
    exact .raised _

end Sys2Proof.Machine
end

