-- ==== Sys2Proof/Laws/PerInstr.lean ====
section
/-! SUPPORT. What holds of every instruction as syntax, one lemma per constructor. -/

namespace Sys2Proof.Laws

/-- The encoding of an instruction carries its opcode value (`spec/30_encoding.md` R82, R90). -/
def OpcodeField.Statement (i : Instr) : Prop := i.encodable = true → (encode i).toInt.tmod 100 = i.opcode

theorem OpcodeField.add (m0 m1 m2 : Digit) : OpcodeField.Statement (.add m0 m1 m2) := by
  intro _; simp only [encode, encode3_toInt m0 m1 m2 (op := 1) (by omega), Instr.opcode, tmod_natCast]; omega

theorem OpcodeField.mul (m0 m1 m2 : Digit) : OpcodeField.Statement (.mul m0 m1 m2) := by
  intro _; simp only [encode, encode3_toInt m0 m1 m2 (op := 2) (by omega), Instr.opcode, tmod_natCast]; omega

theorem OpcodeField.input (m0 : Digit) : OpcodeField.Statement (.input m0) := by
  intro _; simp only [encode, encode1_toInt m0 (op := 3) (by omega), Instr.opcode, tmod_natCast]; omega

theorem OpcodeField.output (m0 : Digit) : OpcodeField.Statement (.output m0) := by
  intro _; simp only [encode, encode1_toInt m0 (op := 4) (by omega), Instr.opcode, tmod_natCast]; omega

theorem OpcodeField.jt (m0 m1 : Digit) : OpcodeField.Statement (.jt m0 m1) := by
  intro _; simp only [encode, encode2_toInt m0 m1 (op := 5) (by omega), Instr.opcode, tmod_natCast]; omega

theorem OpcodeField.jf (m0 m1 : Digit) : OpcodeField.Statement (.jf m0 m1) := by
  intro _; simp only [encode, encode2_toInt m0 m1 (op := 6) (by omega), Instr.opcode, tmod_natCast]; omega

theorem OpcodeField.lt (m0 m1 m2 : Digit) : OpcodeField.Statement (.lt m0 m1 m2) := by
  intro _; simp only [encode, encode3_toInt m0 m1 m2 (op := 7) (by omega), Instr.opcode, tmod_natCast]; omega

theorem OpcodeField.eq (m0 m1 m2 : Digit) : OpcodeField.Statement (.eq m0 m1 m2) := by
  intro _; simp only [encode, encode3_toInt m0 m1 m2 (op := 8) (by omega), Instr.opcode, tmod_natCast]; omega

theorem OpcodeField.arb (m0 : Digit) : OpcodeField.Statement (.arb m0) := by
  intro _; simp only [encode, encode1_toInt m0 (op := 9) (by omega), Instr.opcode, tmod_natCast]; omega

theorem OpcodeField.halt : OpcodeField.Statement .halt := by
  intro _; decide

theorem OpcodeField.illegal (op : Int) : OpcodeField.Statement (.illegal op) := by
  intro h
  simp only [Instr.encodable, illegalOpcode, Bool.or_eq_true, Bool.and_eq_true, decide_eq_true_eq] at h
  simp only [encode, Instr.opcode]
  rw [toInt_ofInt ⟨by simp only [wordMin]; omega, by simp only [wordMax]; omega⟩]
  exact tmod_small (by omega) (by omega)

end Sys2Proof.Laws
end

