-- ==== Sys2Proof/Laws/Step.lean ====
section
/-! SUPPORT. What a step of the machine can do, said once. -/

namespace Sys2Proof.Machine

theorem activeNet_eq_some {s : State} {net : Network} :
    activeNet s = some net ↔ s.net = some net ∧ net.status = .running := by
  unfold activeNet
  split
  · rename_i n hn
    split
    · rename_i hr
      simp only [Option.some.injEq, hn]
      exact ⟨fun h => ⟨h, h ▸ hr⟩, fun h => h.1⟩
    · rename_i hr
      simp only [reduceCtorEq, hn, Option.some.injEq, false_iff, not_and]
      rintro rfl; exact hr
  · rename_i hn; simp [hn]

theorem activeNet_none_of_net {s : State} (h : s.net = none) : activeNet s = none := by
  simp [activeNet, h]

/-- `activeNet` sees only the network. -/
theorem activeNet_congr {s t : State} (h : s.net = t.net) : activeNet s = activeNet t := by
  simp [activeNet, h]

/-- What `finished` says (R186, R187). -/
theorem finished_eq_none {c : Computer} : finished c = none ↔ c.fault = none ∧ c.halted = false := by
  unfold finished
  cases c.fault <;> cases c.halted <;> simp

theorem finished_fault {c : Computer} {f : FaultRecord} (h : c.fault = some f) :
    finished c = some (.fault f) := by simp [finished, h]

theorem finished_halted {c : Computer} (hf : c.fault = none) (hh : c.halted = true) :
    finished c = some (.halted []) := by simp [finished, hf, hh]

/-- Everything `finished` can answer. -/
theorem finished_eq_some {c : Computer} {r : RunResult} :
    finished c = some r ↔
      (∃ f, c.fault = some f ∧ r = .fault f) ∨ (c.fault = none ∧ c.halted = true ∧ r = .halted []) := by
  unfold finished
  cases hf : c.fault <;> cases hh : c.halted <;> simp [eq_comm]

/-- The start of a `run` call on a Computer that has finished changes nothing (R186, R187). -/
theorem startRun_finished {s : State} {r : RunResult} (inputs : List Word) (h : finished s.comp = some r) :
    startRun inputs s = endCall r s := by simp [startRun, h]

/-- The start of a `run` call on any other queues the inputs and begins a quantum (R185). -/
theorem startRun_begins {s : State} (inputs : List Word) (h : finished s.comp = none) :
    startRun inputs s =
      { s with
        comp := { s.comp with inq := s.comp.inq ++ inputs }
        control := .quantum
        callStart := s.comp.outLog.length } := by simp [startRun, h]

@[simp] theorem startRun_cfg (inputs : List Word) (s : State) : (startRun inputs s).cfg = s.cfg := by
  unfold startRun; split <;> rfl
@[simp] theorem startRun_before (inputs : List Word) (s : State) : (startRun inputs s).before = s.before := by
  unfold startRun; split <;> rfl
@[simp] theorem startRun_after (inputs : List Word) (s : State) : (startRun inputs s).after = s.after := by
  unfold startRun; split <;> rfl
@[simp] theorem startRun_net (inputs : List Word) (s : State) : (startRun inputs s).net = s.net := by
  unfold startRun; split <;> rfl
@[simp] theorem startRun_calls (inputs : List Word) (s : State) : (startRun inputs s).calls = s.calls := by
  unfold startRun; split <;> rfl
@[simp] theorem startRun_replies (inputs : List Word) (s : State) :
    (startRun inputs s).replies = s.replies := by
  unfold startRun; split <;> rfl

/-- Every way a step can reach a next state. -/
inductive Move (s : State) : State → Prop
  /-- A `run` call in progress on a Computer that has finished returns (R186, R187). -/
  | finished (r : RunResult) (hc : s.control = .quantum) (hf : finished s.comp = some r) :
      Move s (endCall r s)
  /-- The Computer at the cursor executes one instruction (R180). -/
  | engine (s' : State) (hc : s.control = .quantum) (hf : Machine.finished s.comp = none)
      (he : exec (decode (fetch s.comp)) s = .next s') : Move s s'
  /-- The host takes the result of its `run` call. -/
  | hostTakes (r : RunResult) (hc : s.control = .returned r) (hn : activeNet s = none) :
      Move s (answer (.ran r) s)
  /-- The scheduler takes the result of its `run` call (R212, R215). -/
  | schedulerTakes (r : RunResult) (net : Network) (s' : State) (hc : s.control = .returned r)
      (hn : activeNet s = some net) (he : endTurn net r s = .next s') : Move s s'
  /-- The scheduler invokes `run` on the Computer at the cursor (R212, R215). -/
  | schedulerCalls (net : Network) (inputs : List Word) (hc : s.control = .caller)
      (hn : activeNet s = some net) : Move s (startRun inputs s)
  /-- The host has no call to make. -/
  | waits (hc : s.control = .caller) (hn : activeNet s = none) (hq : s.calls = []) : Move s s
  /-- The host makes its next call. -/
  | hostCalls (c : HostCall) (rest : List HostCall) (s' : State) (hc : s.control = .caller)
      (hn : activeNet s = none) (hq : s.calls = c :: rest)
      (he : hostCall c { s with calls := rest } = .next s') : Move s s'

/-- Everything a step can do when it answers a next state. -/
theorem step_move {s s' : State} (h : step s = .next s') : Move s s' := by
  unfold step at h
  split at h
  · rename_i hc
    unfold engineStep at h
    split at h
    · rename_i r hf
      simp only [Host.Outcome.next.injEq] at h
      exact h ▸ .finished r hc hf
    · rename_i hf
      exact .engine s' hc hf h
  · rename_i r hc
    unfold takeResult at h
    split at h
    · rename_i net hn
      exact .schedulerTakes r net s' hc hn h
    · rename_i hn
      simp only [Host.Outcome.next.injEq] at h
      exact h ▸ .hostTakes r hc hn
  · rename_i hc
    unfold callerStep at h
    split at h
    · rename_i net hn
      unfold startTurn at h
      split at h
      · simp only [Host.Outcome.next.injEq] at h
        exact h ▸ .schedulerCalls net _ hc hn
      · split at h
        · simp only [Host.Outcome.next.injEq] at h
          exact h ▸ .schedulerCalls net _ hc hn
        · cases h
    · rename_i hn
      unfold hostStep at h
      split at h
      · rename_i hq
        simp only [Host.Outcome.next.injEq] at h
        exact h ▸ .waits hc hn hq
      · rename_i c rest hq
        exact .hostCalls c rest s' hc hn hq h

/-- Everything a construction can do when it answers a next state. -/
theorem withImage_next {image : List Word} {s b s' : State} (h : withImage image s b = .next s') :
    image.length ≤ amax + 1 ∧ image.length ≤ s.cfg.memCap + 1 ∧ s' = answer .created b := by
  unfold withImage at h
  split at h
  · cases h
  · split at h
    · cases h
    · simp only [Host.Outcome.next.injEq] at h
      exact ⟨by omega, by omega, h.symm⟩

/-- Every way a host call can reach a next state. -/
inductive HostMove (s : State) : HostCall → State → Prop
  | new (image : List Word) (hl : image.length ≤ amax + 1) :
      HostMove s (.new image) (answer .created (newSession image s))
  | network (image : List Word) (p : Word) (ps : List Word) (mode : NetMode) (hl : image.length ≤ amax + 1) :
      HostMove s (.network image (p :: ps) mode) (answer .created (newNetwork image p ps mode s))
  | run (inputs : List Word) (hn : s.net = none) : HostMove s (.run inputs) (startRun inputs s)
  | isHalted (k : Nat) (c : Computer) (hk : (ring s)[k]? = some c) :
      HostMove s (.isHalted k) (answer (.isHalted c.halted) s)
  | snapshot (k : Nat) (c : Computer) (hk : (ring s)[k]? = some c) :
      HostMove s (.snapshot k) (answer (.memory (snapshot c)) s)

/-- Everything a host call can do when it answers a next state. -/
theorem hostCall_move {c : HostCall} {s s' : State} (h : hostCall c s = .next s') : HostMove s c s' := by
  cases c with
  | new image =>
    obtain ⟨hl, -, rfl⟩ := withImage_next h
    exact .new image hl
  | network image phases mode =>
    cases phases with
    | nil => cases h
    | cons p ps =>
      obtain ⟨hl, -, rfl⟩ := withImage_next h
      exact .network image p ps mode hl
  | run inputs =>
    simp only [hostCall] at h
    split at h
    · rename_i hn
      simp only [Host.Outcome.next.injEq] at h
      exact h ▸ .run inputs hn
    · cases h
  | isHalted k =>
    simp only [hostCall] at h
    split at h
    · rename_i comp hk
      simp only [Host.Outcome.next.injEq] at h
      exact h ▸ .isHalted k comp hk
    · cases h
  | snapshot k =>
    simp only [hostCall] at h
    split at h
    · rename_i comp hk
      simp only [Host.Outcome.next.injEq] at h
      exact h ▸ .snapshot k comp hk
    · cases h

/-- Every way the end of a turn can reach a next state (R212, R215, R220). -/
inductive TurnEnd (net : Network) (s : State) : RunResult → State → Prop
  | aborts (f : FaultRecord) : TurnEnd net s (.fault f) (endNetwork net (.aborted (cursor s) f) s)
  | feedback (r : RunResult) (outs : List Word) (hm : net.mode = .feedback)
      (hr : r = .suspended outs ∨ r = .halted outs) : TurnEnd net s r (endFeedbackTurn net outs s)
  | pipeline (v : Word) (hm : net.mode = .pipeline) :
      TurnEnd net s (.halted [v]) (endPipelineStage net v s)

/-- Everything the end of a turn can do when it answers a next state. -/
theorem endTurn_end {net : Network} {r : RunResult} {s s' : State} (h : endTurn net r s = .next s') :
    TurnEnd net s r s' := by
  unfold endTurn at h
  split at h
  · rename_i f
    simp only [Host.Outcome.next.injEq] at h
    exact h ▸ .aborts f
  · rename_i outs
    split at h
    · rename_i hm
      simp only [Host.Outcome.next.injEq] at h
      exact h ▸ .feedback _ outs hm (.inl rfl)
    · cases h
  · rename_i outs
    split at h
    · rename_i hm
      simp only [Host.Outcome.next.injEq] at h
      exact h ▸ .feedback _ outs hm (.inr rfl)
    · rename_i hm
      split at h
      · rename_i v
        simp only [Host.Outcome.next.injEq] at h
        exact h ▸ .pipeline v hm
      · cases h

/-- The Computer at the cursor is the last of the ring exactly when none comes after it (R35). -/
theorem after_isEmpty_iff (s : State) : s.after.isEmpty = true ↔ cursor s + 1 = ringSize s := by
  simp [cursor, ringSize, ring]

/-- The first word of a list of words stands where it was written; the rest lie above. -/
theorem Memory.read_writeList (m : Memory) (a : Nat) (vs : List Word) (b : Nat) :
    Memory.read (Memory.writeList m a vs) b =
      if a ≤ b ∧ b < a + vs.length then vs.getD (b - a) 0 else Memory.read m b := by
  induction vs generalizing m a with
  | nil =>
    have : ¬ (a ≤ b ∧ b < a + ([] : List Word).length) := by simp
    rw [if_neg this]; rfl
  | cons v vs ih =>
    simp only [Memory.writeList, ih, Memory.read_write, List.length_cons]
    by_cases h : b = a
    · subst h
      rw [if_neg (by omega), if_pos rfl, if_pos (by omega), Nat.sub_self, List.getD_cons_zero]
    · rw [if_neg h]
      by_cases hb : a ≤ b ∧ b < a + (vs.length + 1)
      · rw [if_pos (by omega), if_pos hb]
        have : b - a = (b - (a + 1)) + 1 := by omega
        rw [this, List.getD_cons_succ]
      · rw [if_neg (by omega), if_neg hb]

/-- `withFetchWord` puts the instruction where the next step fetches and runs it, in every state. -/
theorem step_withFetchWord (s : State) (nbits w : Nat) {i : Instr} (h : decodeTableWord nbits w = some i) :
    step (s.withFetchWord nbits w) = exec i (s.withFetchWord nbits w) := by
  simp only [decodeTableWord, Option.some.injEq] at h
  have hf : fetch (s.withFetchWord nbits w).comp = tableWord nbits w 0 := by
    simp [fetch, State.withFetchWord, loadAndRun, Memory.read_writeList, tableWords]
  have hd : Machine.finished (s.withFetchWord nbits w).comp = none := rfl
  have hc : (s.withFetchWord nbits w).control = .quantum := rfl
  simp only [step, hc, engineStep, hd, hf, h]

end Sys2Proof.Machine
end

