-- ==== Sys2Proof/Tests/Slice0.lean ====
section
/-! SUPPORT. The model's own tests. Expected results are those of `spec/95_test_vectors.md` (the vector is
named) or worked by hand from the rule named. The second part shows, for each statement with hypotheses, a
state and operands that meet them, at the edges of its clauses. -/

namespace Sys2Proof.Machine.Tests

/-- Words from integers. -/
def words (l : List Int) : List Word := l.map (BitVec.ofInt 64)

/-- A fresh Computer of an image, inside a `run` call that has queued the inputs. -/
def running (image inputs : List Int) : State :=
  { State.reset with
    comp := { newComputer (words image) with inq := words inputs }
    control := .quantum }

/-- A Computer with the words at `pc` and above, which is where it is about to fetch. -/
def placed (pc : Nat) (ws : List Int) : Computer :=
  { newComputer [] with pc := pc, mem := Memory.writeList [] pc (words ws), memSize := pc + ws.length }

/-- A `run` call in progress on a Computer. -/
def inCall (c : Computer) : State := { State.reset with comp := c, control := .quantum }

/-- What a step shows of its next state, none where it stops. -/
def seen {α : Type} (o : Host.Outcome State Fault Refusal) (f : State → α) : Option α :=
  match o with
  | .next s => some (f s)
  | _ => none

/-- The word at `a` and the `pc`. -/
def cellPc (a : Nat) (s : State) : Int × Nat := ((Memory.read s.comp.mem a).toInt, s.comp.pc)

/-! ### Well-formedness: each check refuses an ill-formed term -/

theorem test_wf_canonical : Instr.wellFormed (.add 2 1 0) = true := by decide
theorem test_wf_add_read0 : Instr.wellFormed (.add 3 0 0) = false := by decide
theorem test_wf_add_read1 : Instr.wellFormed (.add 0 3 0) = false := by decide
theorem test_wf_add_write : Instr.wellFormed (.add 0 0 1) = false := by decide
theorem test_wf_mul_read0 : Instr.wellFormed (.mul 4 0 0) = false := by decide
theorem test_wf_mul_read1 : Instr.wellFormed (.mul 0 9 0) = false := by decide
theorem test_wf_mul_write : Instr.wellFormed (.mul 0 0 3) = false := by decide
theorem test_wf_input_immediate : Instr.wellFormed (.input 1) = false := by decide
theorem test_wf_output : Instr.wellFormed (.output 3) = false := by decide
theorem test_wf_jt0 : Instr.wellFormed (.jt 3 0) = false := by decide
theorem test_wf_jt1 : Instr.wellFormed (.jt 0 3) = false := by decide
theorem test_wf_jf0 : Instr.wellFormed (.jf 5 0) = false := by decide
theorem test_wf_jf1 : Instr.wellFormed (.jf 0 5) = false := by decide
theorem test_wf_lt_read0 : Instr.wellFormed (.lt 3 0 0) = false := by decide
theorem test_wf_lt_read1 : Instr.wellFormed (.lt 0 3 0) = false := by decide
theorem test_wf_lt_write : Instr.wellFormed (.lt 0 0 1) = false := by decide
theorem test_wf_eq_read0 : Instr.wellFormed (.eq 3 0 0) = false := by decide
theorem test_wf_eq_read1 : Instr.wellFormed (.eq 0 3 0) = false := by decide
theorem test_wf_eq_write : Instr.wellFormed (.eq 0 0 1) = false := by decide
theorem test_wf_arb : Instr.wellFormed (.arb 3) = false := by decide
theorem test_wf_illegal : Instr.wellFormed (.illegal 5) = false ∧ Instr.wellFormed (.illegal 99) = false ∧
    Instr.wellFormed (.illegal (-100)) = false := by decide
theorem test_encodable_illegal : Instr.encodable (.illegal 9) = false ∧
    Instr.encodable (.illegal (-100)) = false := by decide

/-! ### Decoding: words written out digit by digit from R81 to R91 -/

/-- Places, from the right: opcode 01, m0 = 1, m1 = 0, m2 = 2 (R81, R83). -/
theorem test_decode_add : decode 20101 = .add 1 0 2 := by decide
/-- The example of R83: 1002 is MUL with m0 = 0, m1 = 1, m2 = 0. -/
theorem test_decode_mul : decode 1002 = .mul 0 1 0 := by decide
theorem test_decode_input : decode 203 = .input 2 := by decide
theorem test_decode_output : decode 104 = .output 1 := by decide
theorem test_decode_jt : decode 2105 = .jt 1 2 := by decide
theorem test_decode_jf : decode 1206 = .jf 2 1 := by decide
theorem test_decode_lt : decode 21007 = .lt 0 1 2 := by decide
theorem test_decode_eq : decode 10108 = .eq 1 0 1 := by decide
theorem test_decode_arb : decode 209 = .arb 2 := by decide
/-- Vector D6: `199 mod 100 = 99`. -/
theorem test_decode_halt : decode 199 = .halt := by decide
/-- Vectors D5 and D8. -/
theorem test_decode_illegal : decode 100 = .illegal 0 ∧ decode (-199) = .illegal (-99) := by decide

theorem test_encode_add : encode (.add 1 0 2) = 20101 := by decide
theorem test_encode_mul : encode (.mul 0 1 0) = 1002 := by decide
theorem test_encode_input : encode (.input 2) = 203 := by decide
theorem test_encode_output : encode (.output 1) = 104 := by decide
theorem test_encode_jt : encode (.jt 1 2) = 2105 := by decide
theorem test_encode_jf : encode (.jf 2 1) = 1206 := by decide
theorem test_encode_lt : encode (.lt 0 1 2) = 21007 := by decide
theorem test_encode_eq : encode (.eq 1 0 1) = 10108 := by decide
theorem test_encode_arb : encode (.arb 2) = 209 := by decide
theorem test_encode_halt : encode .halt = 99 := by decide

/-- The rows of `spec/opcode_table.json` by their `match` value, no operand bits. -/
theorem test_decodeTableWord : decodeTableWord 64 1 = some (.add 0 0 0) ∧
    decodeTableWord 64 99 = some .halt ∧ decodeTableWord 64 0 = some (.illegal 0) := by decide

/-- The very next step after `withFetchWord` runs the instruction, from reset. -/
theorem test_withFetchWord : step (State.reset.withFetchWord 64 99) = execHalt (State.reset.withFetchWord 64 99) :=
  rfl

/-! ### One step of each instruction -/

/-- Vector A3: all three parameters relative, `rb = 10`. -/
theorem test_add_relative :
    seen (step { running [22201, 0, 1, 2, 0, 0, 0, 0, 0, 0, 30, 12] [] with
      comp := { (running [22201, 0, 1, 2, 0, 0, 0, 0, 0, 0, 30, 12] []).comp with rb := 10 } }) (cellPc 12) =
      some (42, 4) := by decide
/-- Vector A6: a sum of 2^63 raises `Overflow` with the exact value. -/
theorem test_add_overflow :
    seen (step (running [1101, 9223372036854775807, 1, 0, 99] [])) (fun s => (s.comp.fault, s.comp.pc)) =
      some (some ⟨.overflow, 0, 1, .value 9223372036854775808⟩, 0) := by decide
/-- Vector M2: operands and target are the opcode word itself. -/
theorem test_mul_self : seen (step (running [2, 0, 0, 0, 99] [])) (cellPc 0) = some (4, 4) := by decide
/-- Vector M4: the least `Word` as a product. -/
theorem test_mul_least : seen (step (running [1102, 4294967296, -2147483648, 5, 99] [])) (cellPc 5) =
    some (-9223372036854775808, 4) := by decide
/-- Vector I2: the oldest input first. -/
theorem test_input_fifo :
    seen (step (running [3, 0, 3, 1, 99] [7, 8, 9])) (fun s => (cellPc 0 s, s.comp.inq)) =
      some ((7, 2), words [8, 9]) := by decide
/-- Vector I4: starved, immediate mode still suspends. -/
theorem test_input_suspends :
    seen (step (running [103, 5, 99] [])) (fun s => (s.control, s.comp.fault)) =
      some (.returned (.suspended []), none) := by decide
/-- Vector O4: a read beyond storage gives 0 and grows nothing. -/
theorem test_output_beyond :
    seen (step (running [4, 1000, 99] [])) (fun s => (s.comp.outLog, s.comp.memSize)) =
      some (words [0], 3) := by decide
/-- Vector O6: a negative read address faults. -/
theorem test_output_negative :
    seen (step (running [4, -1, 99] [])) (fun s => s.comp.fault) =
      some (some ⟨.negativeAddress, 0, 4, .value (-1)⟩) := by decide
/-- Vector J5: any value but 0 is true. -/
theorem test_jt_taken : seen (step (running [1105, -1, 4, 99, 104, 7, 99] [])) (fun s => s.comp.pc) = some 4 := by
  decide
/-- Vector J9: not taken, a negative target is harmless. -/
theorem test_jt_not_taken : seen (step (running [1105, 0, -1, 99] [])) (fun s => s.comp.pc) = some 3 := by decide
/-- Vector J3. -/
theorem test_jf_taken : seen (step (running [1106, 0, 4, 99] [])) (fun s => s.comp.pc) = some 4 := by decide
/-- Vector J11: not taken, but the second operand is resolved all the same. -/
theorem test_jf_resolves_both :
    seen (step (running [6, 0, -1, 99] [])) (fun s => s.comp.fault) =
      some (some ⟨.negativeAddress, 0, 6, .value (-1)⟩) := by decide
/-- Vector L4: the comparison is signed. -/
theorem test_lt_signed :
    seen (step (running [1107, 9223372036854775807, -9223372036854775808, 5, 99, 7] [])) (cellPc 5) =
      some (0, 4) := by decide
/-- Vector L1. -/
theorem test_lt_true : seen (step (running [1107, -1, 0, 5, 99] [])) (cellPc 5) = some (1, 4) := by decide
/-- Vector E1: no truncation to 32 bits. -/
theorem test_eq_whole_word :
    seen (step (running [1108, 4294967296, 0, 5, 99, 7] [])) (cellPc 5) = some (0, 4) := by decide
/-- Vector E4: a write parameter in immediate mode. -/
theorem test_eq_write_mode :
    seen (step (running [11108, 1, 1, 5, 99] [])) (fun s => s.comp.fault) =
      some (some ⟨.invalidWriteMode, 0, 8, .param 2⟩) := by decide
/-- Vector R3, its second step: the operand is found with the old `rb`. -/
theorem test_arb_old_base :
    seen (step (inCall { placed 2 [209, 1] with rb := 2, mem := Memory.ofImage (words [109, 2, 209, 1, 99]) }))
      (fun s => s.comp.rb.toInt) = some 3 := by decide
/-- Vector R6, its second step. -/
theorem test_arb_overflow :
    seen (step (inCall { placed 2 [109, 1] with rb := BitVec.ofInt 64 9223372036854775807 }))
      (fun s => s.comp.fault) = some (some ⟨.overflow, 2, 9, .value 9223372036854775808⟩) := by decide
/-- Vector H2: the mode digits of a HALT word are never looked at; `pc` stays. -/
theorem test_halt :
    seen (step (running [12399, 5] [])) (fun s => (s.comp.halted, s.comp.pc, s.control)) =
      some (true, 0, .returned (.halted [])) := by decide
/-- Vector D9: a negative word, not IN. -/
theorem test_illegal :
    seen (step (running [-97, 5] [1])) (fun s => (s.comp.fault, s.comp.inq)) =
      some (some ⟨.invalidOpcode, 0, -97, .none⟩, words [1]) := by decide
/-- Vector F3: parameter 0's negative address before parameter 2's mode. -/
theorem test_fault_priority :
    seen (step (running [10001, -5, 0, 0] [])) (fun s => s.comp.fault) =
      some (some ⟨.negativeAddress, 0, 1, .value (-5)⟩) := by decide
/-- Vector V8a, turn 1: priming leaves the phase setting queued, the turn queues the carried signal. -/
theorem test_network_first_turn :
    seen (step (newNetwork [] 5 (words [6, 7]) .feedback State.reset)) (fun s => (s.comp.inq, s.control)) =
      some (words [5, 0], .quantum) := by decide

/-! ### Witnesses of the statements' hypotheses -/

/-- A standalone session whose host is about to make one call. -/
def hostAsks (c : Computer) (call : HostCall) : State := { State.reset with comp := c, calls := [call] }

/-- A record of a fault. -/
def someFault : FaultRecord := ⟨.invalidOpcode, 0, 0, .none⟩

/-- A network of three Computers at ring position `k`, none of which has run. -/
def member (mode : NetMode) (k : Nat) : State :=
  { State.reset with
    before := List.replicate k (newComputer [])
    comp := newComputer []
    after := List.replicate (2 - k) (newComputer [])
    net := some { mode := mode, phase := words [5, 6, 7], carried := 9, status := .running } }

theorem test_witness_DecodeOfEncode :
    Instr.encodable (.add 9 9 9) = true ∧ Instr.encodable (.illegal (-99)) = true ∧
      Instr.encodable (.illegal 98) = true := by decide

theorem test_witness_EncodeOfDecode :
    (decode 700001).isIllegal = false ∧ (decode (BitVec.ofInt 64 9223372036854775807)).isIllegal = false := by
  decide

theorem test_witness_FieldsOfAnOpcodeWord :
    0 ≤ (BitVec.ofInt 64 0 : Word).toInt ∧ 0 ≤ (BitVec.ofInt 64 9223372036854775807 : Word).toInt := by decide

theorem test_witness_IllegalWords :
    (BitVec.ofInt 64 (-1) : Word).toInt < 0 ∧ (BitVec.ofInt 64 (-9223372036854775808) : Word).toInt < 0 ∧
      0 ≤ (0 : Word).toInt ∧ (decode 0).isIllegal = true ∧ (decode 98).isIllegal = true := by decide

theorem test_witness_CanonicalWordsAreThoseListed :
    (decode 22208).isIllegal = false ∧ (decode 22208).wellFormed = true ∧ encode (decode 22208) = 22208 := by
  decide

/-- A parameter word `p` at the highest address, with `rb = r`. -/
def atTop (p r : Int) : Computer :=
  { placed (amax - 1) [4, p] with rb := BitVec.ofInt 64 r }

/-- Parameter words 0, −1, and `mem_size` of a short image. -/
theorem test_witness_PositionAndImmediateParameters :
    ((atTop 0 0).pc + 1 + 0 ≤ amax ∧ Memory.read (atTop 0 0).mem ((atTop 0 0).pc + 1 + 0) = 0 ∧
        0 ≤ (0 : Word).toInt) ∧
      (Memory.read (atTop (-1) 0).mem ((atTop (-1) 0).pc + 1 + 0)).toInt < 0 ∧
      Memory.below (placed 0 [4, 2]).mem (placed 0 [4, 2]).memSize = true ∧
      ((placed 0 [4, 2]).memSize : Int) ≤ (Memory.read (placed 0 [4, 2]).mem 1).toInt := by decide

/-- Sums 0, `AMAX`, −1 and `AMAX + 1`. -/
theorem test_witness_RelativeParameters :
    ((atTop 0 0).pc + 1 + 0 ≤ amax ∧ Memory.read (atTop 0 0).mem ((atTop 0 0).pc + 1 + 0) = 0 ∧
        0 ≤ (atTop 0 0).rb.toInt + (0 : Word).toInt) ∧
      (atTop 0 9223372036854775807).rb.toInt + (0 : Word).toInt = amax ∧
      (atTop 0 (-1)).rb.toInt + (0 : Word).toInt < 0 ∧
      (amax : Int) < (atTop 1 9223372036854775807).rb.toInt + (1 : Word).toInt := by decide

/-- Vectors F4 and I4. -/
theorem test_witness_ImmediateWriteIsInvalid :
    (∃ (s : State) (a b : Word), readParam s.comp 0 0 = .ok a ∧ readParam s.comp 1 0 = .ok b) ∧
      (running [103, 5, 99] [1]).comp.inq ≠ [] :=
  ⟨⟨running [10001, 0, 0, 0] [], _, _, rfl, rfl⟩, by decide⟩

theorem test_witness_DigitsAreCheckedBeforeFetching :
    (3 : Digit) ≤ 3 ∧ (3 : Digit) ≤ 9 ∧ amax < (placed amax [1]).pc + 1 + 0 ∧ (2 : Digit) ≤ 2 := by decide

theorem test_witness_MemReadOfAnyInteger :
    Memory.below (placed 0 [4, 2]).mem (placed 0 [4, 2]).memSize = true ∧ (-1 : Int) < 0 ∧
      (amax : Int) < amax + 1 ∧ (0 : Int) ≤ amax := by decide

theorem test_witness_WriteThenRead :
    Memory.below (placed 0 [4, 2]).mem (placed 0 [4, 2]).memSize = true ∧ (placed 0 [4, 2]).memSize ≤ 2 ∧
      2 < 3 := by decide

theorem test_witness_CanonicalMemoriesAgree :
    ∃ m m' : Memory, Memory.wf m = true ∧ Memory.wf m' = true ∧ ∀ a, Memory.read m a = Memory.read m' a :=
  ⟨[(3, 5)], Memory.write [] 3 5, rfl, rfl, fun _ => rfl⟩

/-- An ADD at the highest `pc` from which it can advance, with the greatest sum, at the highest target. -/
def topBinary (op : Int) (a b : Int) : State :=
  inCall { placed (amax - 4) [op, a, b, 0] with rb := BitVec.ofInt 64 9223372036854775807 }

theorem test_witness_AddStoresTheSum :
    ∃ (s : State) (a b : Word) (t : Nat), readParam s.comp 0 1 = .ok a ∧ readParam s.comp 1 1 = .ok b ∧
      writeAddr s.comp 2 2 = .ok t ∧ InRange (a.toInt + b.toInt) ∧ s.comp.pc + 4 ≤ amax ∧ t ≤ s.cfg.memCap :=
  ⟨topBinary 21101 9223372036854775806 1, _, _, _, rfl, rfl, rfl, by decide, by decide, by decide⟩

theorem test_witness_MulStoresTheProduct :
    ∃ (s : State) (a b : Word) (t : Nat), readParam s.comp 0 1 = .ok a ∧ readParam s.comp 1 1 = .ok b ∧
      writeAddr s.comp 2 2 = .ok t ∧ InRange (a.toInt * b.toInt) ∧ s.comp.pc + 4 ≤ amax ∧ t ≤ s.cfg.memCap :=
  ⟨topBinary 21102 4294967296 (-2147483648), _, _, _, rfl, rfl, rfl, by decide, by decide, by decide⟩

/-- The highest `pc` that can advance, the next above it, and a defect. -/
theorem test_witness_LtStoresTheComparison :
    (∃ (s : State) (a b : Word) (t : Nat), readParam s.comp 0 1 = .ok a ∧ readParam s.comp 1 1 = .ok b ∧
        writeAddr s.comp 2 2 = .ok t ∧ s.comp.pc + 4 ≤ amax ∧ t ≤ s.cfg.memCap) ∧
      (∃ (s : State) (a b : Word) (t : Nat), readParam s.comp 0 1 = .ok a ∧ readParam s.comp 1 1 = .ok b ∧
        writeAddr s.comp 2 0 = .ok t ∧ amax < s.comp.pc + 4) ∧
      FirstDefect (.lt 3 0 0) (running [307, 0, 0, 0] []).comp ⟨.invalidMode, .digit 0 3⟩ :=
  ⟨⟨topBinary 21107 (-1) 0, _, _, _, rfl, rfl, rfl, by decide, by decide⟩,
    ⟨inCall (placed (amax - 3) [1107, 2, 3, 0]), _, _, _, rfl, rfl, rfl, by decide⟩, .inl rfl⟩

/-- The highest `pc` that can advance, the next above it, and a defect. -/
theorem test_witness_EqStoresTheComparison :
    (∃ (s : State) (a b : Word) (t : Nat), readParam s.comp 0 1 = .ok a ∧ readParam s.comp 1 1 = .ok b ∧
        writeAddr s.comp 2 2 = .ok t ∧ s.comp.pc + 4 ≤ amax ∧ t ≤ s.cfg.memCap) ∧
      (∃ (s : State) (a b : Word) (t : Nat), readParam s.comp 0 1 = .ok a ∧ readParam s.comp 1 1 = .ok b ∧
        writeAddr s.comp 2 0 = .ok t ∧ amax < s.comp.pc + 4) ∧
      FirstDefect (.eq 3 0 0) (running [308, 0, 0, 0] []).comp ⟨.invalidMode, .digit 0 3⟩ :=
  ⟨⟨topBinary 21108 7 7, _, _, _, rfl, rfl, rfl, by decide, by decide⟩,
    ⟨inCall (placed (amax - 3) [1108, 2, 3, 0]), _, _, _, rfl, rfl, rfl, by decide⟩, .inl rfl⟩

theorem test_witness_InStoresTheOldestInput :
    ∃ (s : State) (v : Word) (rest : List Word) (t : Nat), s.comp.inq = v :: rest ∧
      writeAddr s.comp 0 2 = .ok t ∧ s.comp.pc + 2 ≤ amax ∧ t ≤ s.cfg.memCap :=
  ⟨inCall { placed (amax - 2) [203, 0] with rb := BitVec.ofInt 64 9223372036854775807, inq := words [8, 9] },
    _, _, _, rfl, rfl, by decide, by decide⟩

/-- A starved IN with an illegal mode digit; the call ended by it; a starved Computer that the host runs with
input. -/
theorem test_witness_InSuspendsOnAnEmptyQueue :
    (running [103, 5] []).comp.inq = [] ∧
      (∃ s', (running [3, 5] []).control = .quantum ∧ exec (.input 0) (running [3, 5] []) = .next s' ∧
        s'.control = .returned (.suspended [])) ∧
      (hostAsks (newComputer (words [3, 5])) (.run [7])).control = .caller ∧
      (hostAsks (newComputer (words [3, 5])) (.run [7])).net = none ∧
      (hostAsks (newComputer (words [3, 5])) (.run [7])).calls = [.run [7]] ∧
      (newComputer (words [3, 5])).fault = none ∧ (newComputer (words [3, 5])).halted = false ∧
      (newComputer (words [3, 5])).inq = [] ∧
      decode (Memory.read (newComputer (words [3, 5])).mem 0) = .input 0 :=
  ⟨rfl, ⟨_, rfl, rfl, rfl⟩, by decide⟩

/-- The highest `pc` that can advance, the next above it, and vector O7. -/
theorem test_witness_OutEmitsTheOperand :
    (∃ (s : State) (a : Word), readParam s.comp 0 1 = .ok a ∧ s.comp.pc + 2 ≤ amax) ∧
      (∃ (s : State) (a : Word), readParam s.comp 0 1 = .ok a ∧ amax < s.comp.pc + 2) ∧
      FirstDefect (.output 4) (running [404, 0, 99] []).comp ⟨.invalidMode, .digit 0 4⟩ :=
  ⟨⟨inCall (placed (amax - 2) [104, 7]), _, rfl, by decide⟩,
    ⟨inCall (placed (amax - 1) [104, 7]), _, rfl, by decide⟩, rfl⟩

/-- Taken with target 0 and with target `AMAX`; not taken at the highest `pc`. -/
theorem test_witness_JtJumpsIfTrue :
    (∃ (s : State) (a b : Word), readParam s.comp 0 1 = .ok a ∧ readParam s.comp 1 1 = .ok b ∧
        a.toInt ≠ 0 ∧ b.toInt = 0) ∧
      (∃ (s : State) (a b : Word), readParam s.comp 0 1 = .ok a ∧ readParam s.comp 1 1 = .ok b ∧
        a.toInt ≠ 0 ∧ b.toInt = amax) ∧
      ∃ (s : State) (a b : Word), readParam s.comp 0 1 = .ok a ∧ readParam s.comp 1 1 = .ok b ∧
        a.toInt = 0 ∧ s.comp.pc + 3 ≤ amax :=
  ⟨⟨running [1105, -1, 0] [], _, _, rfl, rfl, by decide, by decide⟩,
    ⟨running [1105, 1, 9223372036854775807] [], _, _, rfl, rfl, by decide, by decide⟩,
    inCall (placed (amax - 3) [1105, 0, -1]), _, _, rfl, rfl, by decide, by decide⟩

theorem test_witness_JfJumpsIfFalse :
    (∃ (s : State) (a b : Word), readParam s.comp 0 1 = .ok a ∧ readParam s.comp 1 1 = .ok b ∧
        a.toInt = 0 ∧ b.toInt = 0) ∧
      (∃ (s : State) (a b : Word), readParam s.comp 0 1 = .ok a ∧ readParam s.comp 1 1 = .ok b ∧
        a.toInt = 0 ∧ b.toInt = amax) ∧
      ∃ (s : State) (a b : Word), readParam s.comp 0 1 = .ok a ∧ readParam s.comp 1 1 = .ok b ∧
        a.toInt ≠ 0 ∧ s.comp.pc + 3 ≤ amax :=
  ⟨⟨running [1106, 0, 0] [], _, _, rfl, rfl, by decide, by decide⟩,
    ⟨running [1106, 0, 9223372036854775807] [], _, _, rfl, rfl, by decide, by decide⟩,
    inCall (placed (amax - 3) [1106, -1, -1]), _, _, rfl, rfl, by decide, by decide⟩

theorem test_witness_ArbAddsToTheRelativeBase :
    ∃ (s : State) (a : Word), readParam s.comp 0 1 = .ok a ∧ InRange (s.comp.rb.toInt + a.toInt) ∧
      s.comp.pc + 2 ≤ amax :=
  ⟨inCall { placed (amax - 2) [109, 1] with rb := BitVec.ofInt 64 9223372036854775806 }, _, rfl, by decide,
    by decide⟩

/-- A sum of 2^63 (vector A6), a product of 2^63 (vector M5), a base of 2^63 (vector R6). -/
theorem test_witness_ResultsOutOfRangeOverflow :
    (∃ (s : State) (a b : Word) (t : Nat), readParam s.comp 0 1 = .ok a ∧ readParam s.comp 1 1 = .ok b ∧
        writeAddr s.comp 2 0 = .ok t ∧ ¬ InRange (a.toInt + b.toInt)) ∧
      (∃ (s : State) (a b : Word) (t : Nat), readParam s.comp 0 1 = .ok a ∧ readParam s.comp 1 1 = .ok b ∧
        writeAddr s.comp 2 0 = .ok t ∧ ¬ InRange (a.toInt * b.toInt)) ∧
      ∃ (s : State) (a : Word), readParam s.comp 0 1 = .ok a ∧ ¬ InRange (s.comp.rb.toInt + a.toInt) :=
  ⟨⟨running [1101, 9223372036854775807, 1, 0] [], _, _, _, rfl, rfl, rfl, by decide⟩,
    ⟨running [1102, 4294967296, 2147483648, 0] [], _, _, _, rfl, rfl, rfl, by decide⟩,
    inCall { placed 0 [109, 1] with rb := BitVec.ofInt 64 9223372036854775807 }, _, rfl, by decide⟩

/-- Targets −1, 0 and −1 untaken, for a true and a false condition. -/
theorem test_witness_JumpTargets :
    (∃ (s : State) (a b : Word), readParam s.comp 0 1 = .ok a ∧ readParam s.comp 1 1 = .ok b ∧
        a.toInt ≠ 0 ∧ b.toInt < 0 ∧ s.comp.pc + 3 ≤ amax) ∧
      (∃ (s : State) (a b : Word), readParam s.comp 0 1 = .ok a ∧ readParam s.comp 1 1 = .ok b ∧
        a.toInt = 0 ∧ b.toInt < 0 ∧ s.comp.pc + 3 ≤ amax) ∧
      (∃ (s : State) (a b : Word), readParam s.comp 0 1 = .ok a ∧ readParam s.comp 1 1 = .ok b ∧
        a.toInt ≠ 0 ∧ 0 ≤ b.toInt) ∧
      ∃ (s : State) (a b : Word), readParam s.comp 0 1 = .ok a ∧ readParam s.comp 1 1 = .ok b ∧
        a.toInt = 0 ∧ 0 ≤ b.toInt :=
  ⟨⟨inCall (placed (amax - 3) [1105, 1, -1]), _, _, rfl, rfl, by decide, by decide, by decide⟩,
    ⟨inCall (placed (amax - 3) [1105, 0, -1]), _, _, rfl, rfl, by decide, by decide, by decide⟩,
    ⟨running [1105, -1, 0] [], _, _, rfl, rfl, by decide, by decide⟩,
    running [1105, 0, 0] [], _, _, rfl, rfl, by decide, by decide⟩

/-- Each shape at the lowest `pc` from which it cannot advance. -/
theorem test_witness_AdvanceBeyondAmaxOverflows :
    (∃ (s : State) (a b : Word) (t : Nat), readParam s.comp 0 1 = .ok a ∧ readParam s.comp 1 1 = .ok b ∧
        writeAddr s.comp 2 0 = .ok t ∧ amax < s.comp.pc + 4 ∧ InRange (a.toInt + b.toInt) ∧
        InRange (a.toInt * b.toInt)) ∧
      (∃ (s : State) (a b : Word), readParam s.comp 0 1 = .ok a ∧ readParam s.comp 1 1 = .ok b ∧
        amax < s.comp.pc + 3 ∧ a.toInt = 0) ∧
      (∃ (s : State) (a b : Word), readParam s.comp 0 1 = .ok a ∧ readParam s.comp 1 1 = .ok b ∧
        amax < s.comp.pc + 3 ∧ a.toInt ≠ 0) ∧
      ∃ (s : State) (a : Word) (t : Nat), amax < s.comp.pc + 2 ∧ s.comp.inq ≠ [] ∧
        writeAddr s.comp 0 0 = .ok t ∧ readParam s.comp 0 1 = .ok a ∧ InRange (s.comp.rb.toInt + a.toInt) :=
  ⟨⟨inCall (placed (amax - 3) [1101, 2, 3, 0]), _, _, _, rfl, rfl, rfl, by decide, by decide, by decide⟩,
    ⟨inCall (placed (amax - 2) [1105, 0, 0]), _, _, rfl, rfl, by decide, by decide⟩,
    ⟨inCall (placed (amax - 2) [1106, 1, 0]), _, _, rfl, rfl, by decide, by decide⟩,
    inCall { placed (amax - 1) [3, 0] with inq := words [1] }, _, _, by decide, by decide, rfl, rfl, by decide⟩

/-- Vectors F2, F3 and F4, J10, I4 after its second call, and an illegal word. -/
theorem test_witness_FirstDefectIsReported :
    FirstDefect (.add 3 0 1) (running [10301, 0, 0, 0] []).comp ⟨.invalidMode, .digit 0 3⟩ ∧
      FirstDefect (.mul 0 0 1) (running [10002, -5, 0, 0] []).comp ⟨.negativeAddress, .value (-5)⟩ ∧
      FirstDefect (.lt 0 0 1) (running [10007, 0, 0, 0] []).comp ⟨.invalidWriteMode, .param 2⟩ ∧
      FirstDefect (.eq 0 3 1) (running [13008, 0, 0, 0] []).comp ⟨.invalidMode, .digit 1 3⟩ ∧
      FirstDefect (.jt 0 0) (running [5, 1, -1, 99] []).comp ⟨.negativeAddress, .value (-1)⟩ ∧
      FirstDefect (.jf 3 0) (running [306, 1, -1, 99] []).comp ⟨.invalidMode, .digit 0 3⟩ ∧
      FirstDefect (.input 1) (running [103, 5, 99] [1]).comp ⟨.invalidWriteMode, .param 0⟩ ∧
      FirstDefect (.output 4) (running [404, 0, 99] []).comp ⟨.invalidMode, .digit 0 4⟩ ∧
      FirstDefect (.arb 0) (running [9, -1] []).comp ⟨.negativeAddress, .value (-1)⟩ ∧
      FirstDefect (.illegal 55) (running [55] []).comp ⟨.invalidOpcode, .none⟩ :=
  ⟨.inl rfl, .inl rfl, .inr (.inr ⟨_, _, rfl, rfl, rfl⟩), .inr (.inl ⟨_, rfl, rfl⟩),
    .inr ⟨_, rfl, rfl⟩, .inl rfl, ⟨by decide, rfl⟩, rfl, rfl, rfl⟩

/-- An instruction that sets the fault record, of a standalone Computer and of a network's. -/
theorem test_witness_FaultsArePrecise :
    (∃ (s s' : State) (f : FaultRecord), exec (.output 4) s = .next s' ∧ s.comp.fault = none ∧
        s'.comp.fault = some f) ∧
      ∃ (s s' : State) (f : FaultRecord) (net : Network), exec (.illegal 0) s = .next s' ∧
        s.comp.fault = none ∧ s'.comp.fault = some f ∧ s.net = some net ∧ net.status = .running :=
  ⟨⟨running [404, 0, 99] [], _, _, rfl, rfl, rfl⟩, member .feedback 1, _, _, _, rfl, rfl, rfl, rfl, rfl⟩

/-- The kinds of `FaultKindsByInstruction`, each raised once. -/
theorem test_witness_FaultKindsByInstruction :
    (∃ (s s' : State) (f : FaultRecord), exec (.illegal 0) s = .next s' ∧ s.comp.fault = none ∧
        s'.comp.fault = some f ∧ f.kind = .invalidOpcode) ∧
      (∃ (s s' : State) (f : FaultRecord), exec (.input 1) s = .next s' ∧ s.comp.fault = none ∧
        s'.comp.fault = some f ∧ f.kind = .invalidWriteMode) ∧
      ∃ (s s' : State) (f : FaultRecord), exec (.output 4) s = .next s' ∧ s.comp.fault = none ∧
        s'.comp.fault = some f ∧ f.kind = .invalidMode :=
  ⟨⟨running [0] [], _, _, rfl, rfl, rfl, rfl⟩, ⟨running [103, 5] [1], _, _, rfl, rfl, rfl, rfl⟩,
    running [404, 0] [], _, _, rfl, rfl, rfl, rfl⟩

theorem test_witness_EveryInstructionAnswers : amax ≤ State.reset.cfg.memCap := by decide

theorem test_witness_StoringInstructionsFrame :
    (∃ s', exec (.add 1 1 0) (running [1101, 20, 22, 5] []) = .next s') ∧
      (∃ s', exec (.mul 1 1 0) (running [1102, -6, 7, 5] []) = .next s') ∧
      (∃ s', exec (.lt 1 1 0) (running [1107, -1, 0, 5] []) = .next s') ∧
      ∃ s', exec (.eq 1 1 0) (running [1108, -1, -1, 5] []) = .next s' :=
  ⟨⟨_, rfl⟩, ⟨_, rfl⟩, ⟨_, rfl⟩, _, rfl⟩

/-- A store, a suspension and a fault. -/
theorem test_witness_InputFrame :
    (∃ s', exec (.input 0) (running [3, 5] [42]) = .next s') ∧
      (∃ s', exec (.input 0) (running [3, 5] []) = .next s') ∧
      ∃ s', exec (.input 0) (running [3, -1] [1]) = .next s' := ⟨⟨_, rfl⟩, ⟨_, rfl⟩, _, rfl⟩

theorem test_witness_NonStoringInstructionsFrame :
    (∃ s', exec (.output 1) (running [104, -3] []) = .next s') ∧
      (∃ s', exec (.arb 1) (running [109, 5] []) = .next s') ∧
      (∃ s', exec (.jt 1 1) (running [1105, 1, 4] []) = .next s') ∧
      ∃ s', exec (.jf 1 1) (running [1106, 0, 4] []) = .next s' :=
  ⟨⟨_, rfl⟩, ⟨_, rfl⟩, ⟨_, rfl⟩, _, rfl⟩

theorem test_witness_EndingInstructionsFrame :
    (∃ s', exec .halt (running [99] []) = .next s') ∧
      Instr.isIllegal (.illegal 0) = true ∧ ∃ s', exec (.illegal 0) (running [0] []) = .next s' :=
  ⟨⟨_, rfl⟩, rfl, _, rfl⟩

/-- Each item changed by its writer. -/
theorem test_witness_WritersOfEachItem :
    (∃ s', exec (.arb 1) (running [109, 5] []) = .next s' ∧ s'.comp.rb ≠ (running [109, 5] []).comp.rb) ∧
      (∃ s', exec .halt (running [99] []) = .next s' ∧ s'.comp.halted ≠ (running [99] []).comp.halted) ∧
      (∃ s', exec (.input 0) (running [3, 5] [42]) = .next s' ∧ s'.comp.inq ≠ (running [3, 5] [42]).comp.inq) ∧
      (∃ s', exec (.output 1) (running [104, 7] []) = .next s' ∧
        s'.comp.outLog ≠ (running [104, 7] []).comp.outLog) ∧
      ∃ s', exec (.add 1 1 0) (running [1101, 20, 22, 5] []) = .next s' ∧
        ¬ SameMemory (running [1101, 20, 22, 5] []) s' :=
  ⟨⟨_, rfl, by decide⟩, ⟨_, rfl, by decide⟩, ⟨_, rfl, by decide⟩, ⟨_, rfl, by decide⟩, _, rfl,
    fun h => absurd h.2 (by decide)⟩

theorem test_witness_StepRunsTheDecodedInstruction :
    ((running [99] []).control = .quantum ∧ (running [99] []).comp.fault = none ∧
        (running [99] []).comp.halted = false) ∧
      (inCall { newComputer [] with halted := true }).comp.halted = true ∧
      (inCall { newComputer [] with fault := some someFault }).comp.fault = some someFault := by decide

/-- A ready, a halted and a faulted Computer that the host runs. -/
theorem test_witness_RunBeginsOrReturns :
    ((hostAsks (newComputer []) (.run [])).control = .caller ∧
        (hostAsks (newComputer []) (.run [])).net = none ∧
        (hostAsks (newComputer []) (.run [])).calls = [.run []]) ∧
      (hostAsks { newComputer [] with halted := true } (.run [])).comp.halted = true ∧
      (hostAsks { newComputer [] with fault := some someFault } (.run [])).comp.fault = some someFault := by
  decide

/-- Vector S1, the end of its first call by suspension, and vector H1. -/
theorem test_witness_RunReturnsItsOwnOutputs :
    (∃ s', finished (running [3, 7] []).comp = none ∧ step (running [3, 7] []) = .next s' ∧
        s'.control = .returned (.suspended [])) ∧
      ∃ s', finished (running [99] []).comp = none ∧ step (running [99] []) = .next s' ∧
        s'.control = .returned (.halted []) :=
  ⟨⟨_, rfl, rfl, rfl⟩, _, rfl, rfl, rfl⟩

/-- One step of `OUT #7` and then a starved IN. -/
theorem test_witness_LaterInputsDoNotChangeAQuantum :
    ∃ t : State, (running [104, 7, 3, 9] []).net = none ∧ (running [104, 7, 3, 9] []).calls = [] ∧
      (running [104, 7, 3, 9] []).control = .quantum ∧
      Host.Core.run Sys2Proof.core 1 (running [104, 7, 3, 9] []) = Host.Outcome.next t ∧
      t.control = .quantum ∧ finished t.comp = none :=
  ⟨_, rfl, rfl, rfl, rfl, rfl, rfl⟩

theorem test_witness_InspectionChangesNothing :
    (hostAsks (newComputer []) (.isHalted 0)).control = .caller ∧
      activeNet (hostAsks (newComputer []) (.isHalted 0)) = none ∧
      (ring (hostAsks (newComputer []) (.isHalted 0)))[0]? = some (newComputer []) ∧
      (hostAsks (newComputer (words [4])) (.snapshot 0)).calls = [.snapshot 0] ∧
      0 < (newComputer (words [4])).memSize := by decide

theorem test_witness_StepKeepsEveryComputerSound :
    ∃ s', State.RingInv (running [1101, 20, 22, 5] []) ∧ step (running [1101, 20, 22, 5] []) = .next s' :=
  ⟨_, by decide, rfl⟩

/-- Inside a call, and a network that runs. -/
theorem test_witness_StepKeepsCallsAndNetworkSound :
    (∃ s', State.CallInv (running [3, 5] []) ∧ State.NetInv (running [3, 5] []) ∧
        step (running [3, 5] []) = .next s') ∧
      ∃ s', State.CallInv (member .feedback 2) ∧ State.NetInv (member .feedback 2) ∧
        step (member .feedback 2) = .next s' :=
  ⟨⟨_, ⟨.inl rfl, rfl, Nat.le_refl _⟩, ⟨rfl, rfl⟩, rfl⟩, _, trivial, ⟨rfl, trivial⟩, rfl⟩

theorem test_witness_StepKeepsReportedOutputsTheLog :
    ∃ s', State.LogInv (running [104, 7] []) ∧ step (running [104, 7] []) = .next s' :=
  ⟨_, fun _ => ⟨rfl, Nat.le_refl _, rfl⟩, rfl⟩

theorem test_witness_FinishedComputersNeverChange :
    ∃ (s s' : State) (c : Computer), s.constructs = false ∧ step s = .next s' ∧ (ring s)[0]? = some c ∧
      c.halted = true :=
  ⟨hostAsks { newComputer [] with halted := true } (.run []), _, _, rfl, rfl, rfl, rfl⟩

theorem test_witness_StepTouchesOnlyTheComputerAtTheCursor :
    ∃ s', (member .feedback 1).constructs = false ∧ step (member .feedback 1) = .next s' ∧
      0 ≠ cursor (member .feedback 1) ∧ 2 ≠ cursor (member .feedback 1) := ⟨_, rfl, rfl, by decide, by decide⟩

theorem test_witness_StorageAndLogOnlyGrow :
    ∃ s', (running [104, 7] []).constructs = false ∧ step (running [104, 7] []) = .next s' ∧
      (ring (running [104, 7] []))[0]? = some (newComputer (words [104, 7])) := ⟨_, rfl, rfl, rfl⟩

theorem test_witness_NetworkConstruction :
    (hostAsks (newComputer []) (.network [] [] .feedback)).control = .caller ∧
      activeNet (hostAsks (newComputer []) (.network [] [] .feedback)) = none ∧
      words [5, 6] ≠ [] ∧ (words [99]).length ≤ amax + 1 ∧
      (words [99]).length ≤ (hostAsks (newComputer []) (.network [] [] .feedback)).cfg.memCap + 1 := by decide

/-- A feedback turn, a pipeline stage at the last ring position; a halted and a faulted member. -/
theorem test_witness_SchedulerCallsRun :
    (∃ net, (member .feedback 0).control = .caller ∧ (member .feedback 0).net = some net ∧
        net.status = .running ∧ net.mode = .feedback ∧ (member .feedback 0).comp.fault = none ∧
        (member .feedback 0).comp.halted = false) ∧
      (∃ net, (member .pipeline 2).net = some net ∧ net.mode = .pipeline ∧
        net.phase[cursor (member .pipeline 2)]? = some 7) ∧
      ({ member .feedback 0 with comp := { newComputer [] with halted := true } } : State).comp.halted = true ∧
      ({ member .feedback 0 with comp := { newComputer [] with fault := some someFault } } : State).comp.fault =
        some someFault :=
  ⟨⟨_, rfl, rfl, rfl, rfl, rfl, rfl⟩, ⟨_, rfl, rfl, rfl⟩, rfl, rfl⟩

/-- The last Computer halted, the last not halted, one before the last halted; with and without outputs. -/
theorem test_witness_FeedbackTurn :
    (∃ (s : State) (net : Network), s.net = some net ∧ net.status = .running ∧ net.mode = .feedback ∧
        s.control = .returned (.halted (words [1, 2])) ∧ (words [1, 2]).getLast? = some 2 ∧
        cursor s + 1 = ringSize s ∧ s.comp.halted = true) ∧
      (∃ (s : State) (net : Network), s.net = some net ∧ net.status = .running ∧ net.mode = .feedback ∧
        s.control = .returned (.suspended []) ∧ cursor s + 1 = ringSize s ∧ s.comp.halted = false) ∧
      ∃ (s : State) (net : Network), s.net = some net ∧ net.status = .running ∧ net.mode = .feedback ∧
        s.control = .returned (.halted []) ∧ cursor s + 2 = ringSize s ∧ s.comp.halted = true :=
  ⟨⟨{ member .feedback 2 with
      comp := { newComputer [] with halted := true }, control := .returned (.halted (words [1, 2])) },
      _, rfl, rfl, rfl, rfl, rfl, rfl, rfl⟩,
    ⟨{ member .feedback 2 with control := .returned (.suspended []) }, _, rfl, rfl, rfl, rfl, rfl, rfl⟩,
    { member .feedback 1 with
      comp := { newComputer [] with halted := true }, control := .returned (.halted []) },
      _, rfl, rfl, rfl, rfl, rfl, rfl⟩

/-- A stage before the last and the last; a suspension, no output, two outputs. -/
theorem test_witness_PipelineStage :
    (∃ (s : State) (net : Network), s.net = some net ∧ net.status = .running ∧ net.mode = .pipeline ∧
        s.control = .returned (.halted [4]) ∧ cursor s + 1 < ringSize s) ∧
      (∃ (s : State) (net : Network), s.net = some net ∧ net.status = .running ∧ net.mode = .pipeline ∧
        s.control = .returned (.halted [4]) ∧ cursor s + 1 = ringSize s) ∧
      (∀ v, RunResult.suspended [4] ≠ .halted [v]) ∧ (∀ v, RunResult.halted [] ≠ .halted [v]) ∧
      (∀ v, RunResult.halted [4, 5] ≠ .halted [v]) ∧ ∀ f, RunResult.halted [] ≠ .fault f :=
  ⟨⟨{ member .pipeline 1 with control := .returned (.halted [4]) }, _, rfl, rfl, rfl, rfl, by decide⟩,
    ⟨{ member .pipeline 2 with control := .returned (.halted [4]) }, _, rfl, rfl, rfl, rfl, rfl⟩,
    by simp, by simp, by simp, by simp⟩

theorem test_witness_FaultAbortsTheNetwork :
    ∃ (s : State) (net : Network), s.net = some net ∧ net.status = .running ∧
      s.control = .returned (.fault someFault) :=
  ⟨{ member .feedback 1 with control := .returned (.fault someFault) }, _, rfl, rfl, rfl⟩

theorem test_witness_EndedNetworkStaysAsItIs :
    ∃ (s s' : State) (net : Network), State.CallInv s ∧ s.net = some net ∧ net.status ≠ .running ∧
      s.constructs = false ∧ step s = .next s' :=
  ⟨{ State.reset with
      net := some { mode := .feedback, phase := [5], carried := 36, status := .done 36 }
      calls := [.isHalted 0] }, _, _, trivial, rfl, by decide, rfl, rfl⟩

end Sys2Proof.Machine.Tests
end

/-! PROOFS of the family `10_state.md`: the state after reset, who writes what, what a step does to the ring,
and the invariants of every step. -/

/-! ### Construction and reset -/

namespace Sys2Proof.Machine

/-- `new` gives the reset state of R38, whatever the image. -/
theorem newComputer_freshWith (image : List Word) : FreshWith (newComputer image) image [] :=
  ⟨rfl, rfl, rfl, rfl, rfl, rfl, rfl, Memory.read_ofImage image⟩

/-- A fresh Computer meets the invariant of every Computer when its image is a legal argument (R58). -/
theorem newComputer_inv {image : List Word} (h : image.length ≤ amax + 1) :
    Computer.Inv (newComputer image) :=
  ⟨Nat.zero_le _, Memory.wf_ofImage image, Memory.below_ofImage image, h, fun _ => rfl⟩

/-- The Computer of the reset state is `new` of the empty image. -/
theorem reset_comp : State.reset.comp = newComputer [] := rfl

/-- Settles O14: every address of the image's memory reads as `Memory.read_ofImage` says, and
`Memory.ofImage` builds the canonical form. -/
theorem newComputerIsReset : Obligations.NewComputerIsReset := fun image =>
  ⟨newComputer_freshWith image, Memory.wf_ofImage image, Memory.below_ofImage image⟩

/-- Settles O15: the reset Computer is `new` of the empty image; the rest is the definition of the reset
state. -/
theorem resetState : Obligations.ResetState :=
  ⟨reset_comp ▸ newComputer_freshWith [], rfl, rfl, rfl, rfl, rfl, rfl, rfl⟩

/-- Settles O48: the one Computer of the ring is fresh, no call is in progress, and nothing has been emitted
or reported. -/
theorem resetMeetsTheInvariants : Obligations.ResetMeetsTheInvariants := by
  refine ⟨?_, trivial, ⟨rfl, rfl⟩, fun _ _ => rfl⟩
  intro c hc
  obtain rfl : c = newComputer [] := List.mem_singleton.1 hc
  exact newComputer_inv (Nat.zero_le _)

/-! ### Instructions whose operands resolve

What each instruction shape becomes once its parameters have resolved; the check of the next `pc` is its
last one (R120, R183). -/

/-- The taking of a fault is what `Raises` describes. -/
theorem raises_raised (op : Int) (t : Trap) (s : State) : Raises (.next (raised op t s)) op t s :=
  ⟨_, rfl, rfl, rfl, rfl, rfl, rfl, rfl, rfl, rfl, rfl⟩

/-- A check that fails is taken as the instruction's fault. -/
theorem raises_orRaise {α : Type} {op : Int} {s : State} {r : Except Trap α} {t : Trap}
    {k : α → Host.Outcome State Fault Refusal} (h : r = .error t) : Raises (orRaise op s r k) op t s := by
  rw [h]; exact raises_raised op t s

theorem binary_of_operands {op : Int} {m0 m1 m2 : Digit} {f : Word → Word → Except Trap Word} {s : State}
    {a b : Word} {t : Nat} (ha : readParam s.comp 0 m0 = .ok a) (hb : readParam s.comp 1 m1 = .ok b)
    (ht : writeAddr s.comp 2 m2 = .ok t) :
    binary op m0 m1 m2 f s =
      orRaise op s (f a b) fun v => orRaise op s (nextPc s.comp 4) fun n => store t v n s := by
  rw [binary, readTwoTarget_eq_ok.2 ⟨ha, hb, ht⟩]; rfl

theorem jump_of_operands {op : Int} {m0 m1 : Digit} {taken : Word → Bool} {s : State} {a b : Word}
    (ha : readParam s.comp 0 m0 = .ok a) (hb : readParam s.comp 1 m1 = .ok b) :
    jump op m0 m1 taken s =
      if taken a then orRaise op s (jumpTarget b) fun n => setPc n s
      else orRaise op s (nextPc s.comp 3) fun n => setPc n s := by
  rw [jump, readTwo_eq_ok.2 ⟨ha, hb⟩]; rfl

theorem execInput_of_target {m0 : Digit} {s : State} {v : Word} {rest : List Word} {t : Nat}
    (hq : s.comp.inq = v :: rest) (ht : writeAddr s.comp 0 m0 = .ok t) :
    execInput m0 s =
      orRaise 3 s (nextPc s.comp 2) fun n =>
        store t v n { s with comp := { s.comp with inq := rest } } := by
  simp only [execInput, hq, ht, orRaise_ok]; rfl

theorem execOutput_of_operand {m0 : Digit} {s : State} {a : Word} (ha : readParam s.comp 0 m0 = .ok a) :
    execOutput m0 s =
      orRaise 4 s (nextPc s.comp 2) fun n =>
        setPc n { s with comp := { s.comp with outLog := s.comp.outLog ++ [a] } } := by
  rw [execOutput, ha]; rfl

theorem execArb_of_operand {m0 : Digit} {s : State} {a : Word} (ha : readParam s.comp 0 m0 = .ok a) :
    execArb m0 s =
      orRaise 9 s (inWord (s.comp.rb.toInt + a.toInt)) fun v =>
        orRaise 9 s (nextPc s.comp 2) fun n => setPc n { s with comp := { s.comp with rb := v } } := by
  rw [execArb, ha]; rfl

/-- A four-word instruction with operands and a result, whose next `pc` would be above `AMAX`. -/
theorem binary_raises_at_pcEdge {op : Int} {m0 m1 m2 : Digit} {f : Word → Word → Except Trap Word} {s : State}
    {a b v : Word} {t : Nat} (ha : readParam s.comp 0 m0 = .ok a) (hb : readParam s.comp 1 m1 = .ok b)
    (ht : writeAddr s.comp 2 m2 = .ok t) (hv : f a b = .ok v) (hpc : amax < s.comp.pc + 4) :
    Raises (binary op m0 m1 m2 f s) op ⟨.overflow, .value (s.comp.pc + 4)⟩ s := by
  rw [binary_of_operands ha hb ht, hv, orRaise_ok]
  exact raises_orRaise (nextPc_error hpc)

/-- A jump not taken whose next `pc` would be above `AMAX`. -/
theorem jump_raises_at_pcEdge {op : Int} {m0 m1 : Digit} {taken : Word → Bool} {s : State} {a b : Word}
    (ha : readParam s.comp 0 m0 = .ok a) (hb : readParam s.comp 1 m1 = .ok b) (hn : taken a = false)
    (hpc : amax < s.comp.pc + 3) :
    Raises (jump op m0 m1 taken s) op ⟨.overflow, .value (s.comp.pc + 3)⟩ s := by
  rw [jump_of_operands ha hb, hn]
  exact raises_orRaise (nextPc_error hpc)

theorem isNonZero_eq_false {a : Word} (h : a.toInt = 0) : isNonZero a = false := by simp [isNonZero, h]

theorem isNonZero_eq_true {a : Word} (h : a.toInt ≠ 0) : isNonZero a = true := by simp [isNonZero, h]

/-- Settles O30: with the operands, the result and the decision to jump given, what is left of each
instruction begins with the check of its next `pc`. -/
theorem advanceBeyondAmaxOverflows : Obligations.AdvanceBeyondAmaxOverflows := by
  intro m0 m1 m2 s a b t
  refine ⟨fun ha hb ht hpc => ⟨fun hr => ?add, fun hr => ?mul, ?lt, ?eq⟩,
    fun ha hb hpc => ⟨fun h0 => ?jt, fun h0 => ?jf⟩,
    fun hpc => ⟨fun hq ht => ?input, fun ha => ⟨?output, fun hr => ?arb⟩⟩⟩
  case add => exact binary_raises_at_pcEdge ha hb ht (inWord_ok hr) hpc
  case mul => exact binary_raises_at_pcEdge ha hb ht (inWord_ok hr) hpc
  case lt => exact binary_raises_at_pcEdge (f := fun a b => .ok (lessThan a b)) ha hb ht rfl hpc
  case eq => exact binary_raises_at_pcEdge (f := fun a b => .ok (equalTo a b)) ha hb ht rfl hpc
  case jt => exact jump_raises_at_pcEdge ha hb (isNonZero_eq_false h0) hpc
  case jf =>
    exact jump_raises_at_pcEdge (taken := fun a => !isNonZero a) ha hb (by simp [isNonZero_eq_true h0]) hpc
  case input =>
    obtain ⟨v, rest, hv⟩ := List.exists_cons_of_ne_nil hq
    rw [exec, execInput_of_target hv ht]
    exact raises_orRaise (nextPc_error hpc)
  case output =>
    rw [exec, execOutput_of_operand ha]
    exact raises_orRaise (nextPc_error hpc)
  case arb =>
    rw [exec, execArb_of_operand ha, inWord_ok hr, orRaise_ok]
    exact raises_orRaise (nextPc_error hpc)

/-! ### Who writes what -/

/-- Settles O39, by the cases of `Effect`: each names the items it sets, and every other item is as it was. -/
theorem writersOfEachItem : Obligations.WritersOfEachItem := by
  intro i s s' h
  cases exec_effect h with
  | raised | suspended | jumped => simp [SameMemory]
  | binary m0 m1 m2 t v hi => rcases hi with rfl | rfl | rfl | rfl <;> simp [Instr.roles]
  | consumed m0 t v rest hi => subst hi; simp [Instr.roles]
  | emitted m0 a hi => subst hi; simp [SameMemory]
  | based m0 v hi => subst hi; simp [SameMemory]
  | halted hi => subst hi; simp [SameMemory]

/-! ### What a step does to the ring -/

/-- An instruction works on the Computer at the cursor alone. -/
theorem Effect.sameSession {i : Instr} {s s' : State} (h : Effect i s s') : SameSession s s' := by
  cases h <;> exact ⟨rfl, rfl, rfl, rfl, rfl, rfl, rfl⟩

/-- Where only the Computer at the cursor differs, the ring differs at the cursor's position only. -/
theorem ring_eq_set {s s' : State} (hb : s'.before = s.before) (ha : s'.after = s.after) :
    ring s' = (ring s).set (cursor s) s'.comp := by
  simp [ring, cursor, hb, ha]

/-- Putting the Computer at the cursor where it stands changes nothing. -/
theorem ring_set_comp (s : State) : (ring s).set (cursor s) s.comp = ring s :=
  (ring_eq_set (s := s) rfl rfl).symm

/-- What one step can make of the Computer at the cursor. -/
inductive Successor : Computer → Computer → Prop
  /-- The step was a caller's, or a call returned at once (R186, R187). -/
  | kept (c : Computer) : Successor c c
  /-- A `run` call began with these inputs (R185). -/
  | queued (c : Computer) (inputs : List Word) : Successor c { c with inq := c.inq ++ inputs }
  /-- The Computer executed an instruction. -/
  | executed (i : Instr) (s s' : State) (hf : finished s.comp = none) (he : Effect i s s') :
      Successor s.comp s'.comp

/-- The Computer at the cursor after the start of a `run` call (R185 to R187). -/
theorem startRun_successor (inputs : List Word) (s : State) : Successor s.comp (startRun inputs s).comp := by
  cases hf : finished s.comp with
  | some r => rw [startRun_finished inputs hf]; exact .kept _
  | none => rw [startRun_begins inputs hf]; exact .queued _ inputs

/-- What the end of a turn does, in both modes: a fault aborts the network, the last Computer's turn ends it,
or the signal `v` is carried to the next Computer (R212, R215 to R220). -/
inductive TurnResult (net : Network) (s : State) (r : RunResult) : State → Prop
  | aborts (f : FaultRecord) (hr : r = .fault f) :
      TurnResult net s r (endNetwork net (.aborted (cursor s) f) s)
  | done (v : Word) (hlast : s.after = []) (hh : s.comp.halted = true ∨ ∃ outs, r = .halted outs) :
      TurnResult net s r (endNetwork { net with carried := v } (.done v) s)
  | passes (v : Word) :
      TurnResult net s r (advance { s with net := some { net with carried := v }, control := .caller })

theorem endTurn_result {net : Network} {r : RunResult} {s s' : State} (h : endTurn net r s = .next s') :
    TurnResult net s r s' := by
  cases endTurn_end h with
  | aborts f => exact .aborts f rfl
  | feedback r outs hm hr =>
    simp only [endFeedbackTurn]
    split
    · rename_i hlast
      obtain ⟨hlast, hh⟩ := Bool.and_eq_true_iff.1 hlast
      exact .done _ (List.isEmpty_iff.1 hlast) (.inl hh)
    · exact .passes _
  | pipeline v hm =>
    simp only [endPipelineStage]
    split
    · rename_i hlast
      exact .done v (List.isEmpty_iff.1 hlast) (.inr ⟨[v], rfl⟩)
    · exact .passes v

/-- The scheduler changes no Computer (R223). -/
theorem TurnResult.ring_eq {net : Network} {r : RunResult} {s s' : State} (h : TurnResult net s r s') :
    ring s' = ring s := by
  cases h with
  | aborts | done => rfl
  | passes v => rw [advance_ring]; rfl

/-- A Computer just constructed from a legal image, perhaps primed (R38, R39). -/
def Constructed (c : Computer) : Prop :=
  ∃ image q, image.length ≤ amax + 1 ∧ c = { newComputer image with inq := q }

theorem newMember_constructed {image : List Word} (h : image.length ≤ amax + 1) (mode : NetMode) (p : Word) :
    Constructed (newMember image mode p) := by
  cases mode with
  | pipeline => exact ⟨image, [], h, rfl⟩
  | feedback => exact ⟨image, [p], h, rfl⟩

/-- What a step can do to the ring. -/
inductive RingStep (s s' : State) : Prop
  /-- It leaves every Computer but the one at the cursor as it is. -/
  | goesOn (c : Computer) (hc : Successor s.comp c) (hr : ring s' = (ring s).set (cursor s) c)
  /-- It is the host's construction of a new ring. -/
  | constructs (hs : s.constructs = true) (hr : ∀ c ∈ ring s', Constructed c)

theorem RingStep.of_ring_eq {s s' : State} (h : ring s' = ring s) : RingStep s s' :=
  .goesOn s.comp (.kept _) (h.trans (ring_set_comp s).symm)

/-- The host's next call is a construction (R33). -/
theorem constructs_of_new {s : State} {image : List Word} {rest : List HostCall} (hc : s.control = .caller)
    (hn : activeNet s = none) (hq : s.calls = .new image :: rest) : s.constructs = true := by
  simp [State.constructs, hc, hn, hq]

theorem constructs_of_network {s : State} {image phases : List Word} {mode : NetMode} {rest : List HostCall}
    (hc : s.control = .caller) (hn : activeNet s = none) (hq : s.calls = .network image phases mode :: rest) :
    s.constructs = true := by
  simp [State.constructs, hc, hn, hq]

/-- Everything a step can do to the ring when it answers a next state. -/
theorem step_ringStep {s s' : State} (h : step s = .next s') : RingStep s s' := by
  cases step_move h with
  | finished r hc hf => exact .of_ring_eq rfl
  | engine s' hc hf he =>
    have heff := exec_effect he
    obtain ⟨-, hb, ha, -⟩ := heff.sameSession
    exact .goesOn _ (.executed _ s s' hf heff) (ring_eq_set hb ha)
  | hostTakes r hc hn => exact .of_ring_eq rfl
  | schedulerTakes r net s' hc hn he => exact .of_ring_eq (endTurn_result he).ring_eq
  | schedulerCalls net inputs hc hn => 
    exact .goesOn _ (startRun_successor inputs s) (ring_eq_set (startRun_before _ _) (startRun_after _ _))
  | waits hc hn hq => exact .of_ring_eq rfl
  | hostCalls c rest s' hc hn hq he =>
    cases hostCall_move he with
    | new image hl =>
      refine .constructs (constructs_of_new hc hn hq) fun c hm => ?_
      exact ⟨image, [], hl, List.mem_singleton.1 hm⟩
    | network image p ps mode hl =>
      refine .constructs (constructs_of_network hc hn hq) fun c hm => ?_
      obtain ⟨q, -, rfl⟩ : ∃ q ∈ p :: ps, newMember image mode q = c := List.mem_map.1 hm
      exact newMember_constructed hl mode q
    | run inputs hnet => 
      exact .goesOn _ (startRun_successor inputs { s with calls := rest })
        (ring_eq_set (startRun_before _ _) (startRun_after _ _))
    | isHalted | snapshot => exact .of_ring_eq rfl

/-- A step that constructs nothing sets the Computer at the cursor to a successor and no other. -/
theorem step_ring_set {s s' : State} (hs : s.constructs = false) (h : step s = .next s') :
    ∃ c, Successor s.comp c ∧ ring s' = (ring s).set (cursor s) c := by
  cases step_ringStep h with
  | goesOn c hc hr => exact ⟨c, hc, hr⟩
  | constructs hs' hr => simp [hs] at hs'

/-- Settles O50: setting one position of a list leaves its length and every other position. -/
theorem stepTouchesOnlyTheComputerAtTheCursor : Obligations.StepTouchesOnlyTheComputerAtTheCursor := by
  intro s s' hs h
  obtain ⟨c, -, hr⟩ := step_ring_set hs h
  refine ⟨by simp [ringSize, hr], fun k hk => ?_⟩
  rw [hr, List.getElem?_set_ne hk.symm]

/-- An instruction never shrinks storage (R54) and only extends the log (R29). -/
theorem Effect.grows {i : Instr} {s s' : State} (h : Effect i s s') :
    s.comp.memSize ≤ s'.comp.memSize ∧ s.comp.outLog <+: s'.comp.outLog := by
  cases h with
  | binary | consumed => exact ⟨le_max_left _ _, List.prefix_rfl⟩
  | emitted => exact ⟨le_rfl, List.prefix_append _ _⟩
  | raised | suspended | jumped | based | halted => exact ⟨le_rfl, List.prefix_rfl⟩

theorem Successor.grows {c c' : Computer} (h : Successor c c') :
    c.memSize ≤ c'.memSize ∧ c.outLog <+: c'.outLog := by
  cases h with
  | kept => exact ⟨le_rfl, List.prefix_rfl⟩
  | queued _ inputs => exact ⟨le_rfl, List.prefix_rfl⟩
  | executed i s s' hf he => exact he.grows

/-- Settles O51: the Computer at the cursor grows, every other one stays. -/
theorem storageAndLogOnlyGrow : Obligations.StorageAndLogOnlyGrow := by
  intro s s' k c hs h hk
  obtain ⟨c', hc', hr⟩ := step_ring_set hs h
  by_cases hcur : k = cursor s
  · subst hcur
    obtain rfl : s.comp = c := by simpa using hk
    exact ⟨c', by rw [hr, List.getElem?_set_self (cursor_lt_ringSize s)], hc'.grows⟩
  · exact ⟨c, by rw [hr, List.getElem?_set_ne (Ne.symm hcur), hk], le_rfl, List.prefix_rfl⟩

/-! ### The invariant of every Computer -/

/-- A store at a legal address and a legal next `pc` keep the invariant (R22, R27, R53). -/
theorem Computer.Inv.store {c : Computer} {a n : Nat} (v : Word) (h : Computer.Inv c) (ha : a ≤ amax)
    (hn : n ≤ amax) : Computer.Inv { memWrite c a v with pc := n } := by
  obtain ⟨-, hwf, hbelow, hsize, hfault⟩ := h
  exact ⟨hn, Memory.wf_write a v hwf, Memory.below_write a v hbelow,
    max_le hsize (Nat.succ_le_succ ha), hfault⟩

/-- Every instruction keeps the invariant of a Computer that has not finished. -/
theorem Effect.inv {i : Instr} {s s' : State} (he : Effect i s s') (hf : finished s.comp = none)
    (h : Computer.Inv s.comp) : Computer.Inv s'.comp := by
  obtain ⟨hnofault, hrunning⟩ := finished_eq_none.1 hf
  cases he with
  | binary m0 m1 m2 t v hi ht hpc hcap => exact h.store v (writeAddr_le ht) hpc
  | consumed m0 t v rest hi hq ht hpc hcap =>
    exact Computer.Inv.store (c := { s.comp with inq := rest }) v h (writeAddr_le ht) hpc
  | suspended m0 hi hq => exact h
  | emitted m0 a hi hpc => exact ⟨hpc, h.2⟩
  | jumped m0 m1 n hi hn => exact ⟨hn, h.2⟩
  | based m0 v hi hpc => exact ⟨hpc, h.2⟩
  | raised t =>
    obtain ⟨hpc, hwf, hbelow, hsize, -⟩ := h
    exact ⟨hpc, hwf, hbelow, hsize, fun _ => hrunning⟩
  | halted hi =>
    obtain ⟨hpc, hwf, hbelow, hsize, -⟩ := h
    exact ⟨hpc, hwf, hbelow, hsize, fun hfault => by simp [hnofault] at hfault⟩

theorem Successor.inv {c c' : Computer} (hc : Successor c c') (h : Computer.Inv c) : Computer.Inv c' := by
  cases hc with
  | kept => exact h
  | queued _ inputs => exact h
  | executed i s s' hf he => exact he.inv hf h

theorem Constructed.inv {c : Computer} (h : Constructed c) : Computer.Inv c := by
  obtain ⟨image, q, hl, rfl⟩ := h
  exact newComputer_inv hl

/-- Settles O45, by what a step can do to the ring: a successor keeps the invariant, and a ring just
constructed meets it. -/
theorem stepKeepsEveryComputerSound : Obligations.StepKeepsEveryComputerSound := by
  intro s s' hinv h c hm
  cases step_ringStep h with
  | goesOn c' hc' hr =>
    rw [hr] at hm
    rcases List.mem_or_eq_of_mem_set hm with hold | rfl
    · exact hinv c hold
    · exact hc'.inv (hinv s.comp (List.mem_of_getElem? (ring_cursor s)))
  | constructs hs hr => exact (hr c hm).inv

/-! ### What `control` says of the Computer at the cursor -/

theorem callInv_caller {s : State} (hc : s.control = .caller) : State.CallInv s := by
  simp [State.CallInv, hc]

theorem callInv_quantum {s : State} (hc : s.control = .quantum) :
    State.CallInv s ↔
      State.callable s ∧ finished s.comp = none ∧ s.callStart ≤ s.comp.outLog.length := by
  simp [State.CallInv, hc]

theorem callInv_returned {s : State} {r : RunResult} (hc : s.control = .returned r) :
    State.CallInv s ↔ State.callable s ∧ ResultInv r s := by
  simp [State.CallInv, hc]

theorem callInv_of_quantum {s : State} (hc : s.control = .quantum) (hcall : State.callable s)
    (hf : finished s.comp = none) (hk : s.callStart ≤ s.comp.outLog.length) : State.CallInv s :=
  (callInv_quantum hc).2 ⟨hcall, hf, hk⟩

theorem callInv_of_returned {s : State} {r : RunResult} (hc : s.control = .returned r)
    (hcall : State.callable s) (hres : ResultInv r s) : State.CallInv s :=
  (callInv_returned hc).2 ⟨hcall, hres⟩

/-- `callable` sees only the network. -/
theorem callable_congr {s s' : State} (h : s'.net = s.net) : State.callable s' ↔ State.callable s := by
  rw [State.callable, State.callable, h, activeNet_congr h]

theorem conditionOf_halted {c : Computer} : conditionOf c = .halted ↔ c.fault = none ∧ c.halted = true := by
  unfold conditionOf
  cases c.fault <;> cases c.halted <;> simp
  split <;> simp

/-- What a finished Computer returns is true of it (R186, R187). -/
theorem resultInv_of_finished {s : State} {r : RunResult} (h : finished s.comp = some r) :
    ResultInv r s := by
  rcases finished_eq_some.1 h with ⟨f, hf, rfl⟩ | ⟨hf, hh, rfl⟩
  · exact hf
  · exact ⟨conditionOf_halted.2 ⟨hf, hh⟩, List.nil_suffix⟩

/-- The opcode word of an instruction that decodes to IN is one in the sense of R31. -/
theorem isInputWord_of_decode {w : Word} {m0 : Digit} (h : decode w = .input m0) : isInputWord w = true := by
  have hw := decode_cases w
  rw [h] at hw
  cases hw with
  | input h0 ho => simp [isInputWord, h0, ho]

/-- A Computer about to execute IN with nothing queued is starved (R31). -/
theorem conditionOf_starved {c : Computer} {m0 : Digit} (hf : finished c = none)
    (hd : decode (fetch c) = .input m0) (hq : c.inq = []) : conditionOf c = .starved := by
  obtain ⟨hfault, hh⟩ := finished_eq_none.1 hf
  simp [conditionOf, hfault, hh, isInputWord_of_decode hd, hq]

/-- The instruction at `pc` keeps what `control` says: the call goes on with the Computer still running, or
ends with a result that is true of it. -/
theorem Effect.callInv {s s' : State} (he : Effect (decode (fetch s.comp)) s s') (hc : s.control = .quantum)
    (hcall : State.callable s) (hf : finished s.comp = none) (hk : s.callStart ≤ s.comp.outLog.length) :
    State.CallInv s' := by
  obtain ⟨-, -, -, hn, -⟩ := he.sameSession
  have hcall' := (callable_congr hn).2 hcall
  cases he with
  | raised t => exact callInv_of_returned rfl hcall' rfl
  | suspended m0 hi hq =>
    exact callInv_of_returned rfl hcall' ⟨conditionOf_starved hf hi hq, List.drop_suffix _ _⟩
  | halted hi =>
    refine callInv_of_returned rfl hcall' ⟨conditionOf_halted.2 ⟨?_, rfl⟩, List.drop_suffix _ _⟩
    exact (finished_eq_none.1 hf).1
  | binary | consumed | jumped | based => exact callInv_of_quantum hc hcall' hf hk
  | emitted m0 a hi hpc =>
    exact callInv_of_quantum hc hcall' hf (hk.trans (by simp))

/-- The start of a `run` call establishes what `control` says. -/
theorem startRun_callInv {s : State} (inputs : List Word) (hcall : State.callable s) :
    State.CallInv (startRun inputs s) := by
  cases hf : finished s.comp with
  | some r =>
    rw [startRun_finished inputs hf]
    exact callInv_of_returned rfl hcall (resultInv_of_finished hf)
  | none =>
    rw [startRun_begins inputs hf]
    exact callInv_of_quantum rfl hcall hf le_rfl

/-- Every step keeps what `control` says of the Computer at the cursor. -/
theorem Move.callInv {s s' : State} (hm : Move s s') (h : State.CallInv s) : State.CallInv s' := by
  cases hm with
  | finished r hc hf =>
    obtain ⟨hcall, -, -⟩ := (callInv_quantum hc).1 h
    exact callInv_of_returned rfl hcall (resultInv_of_finished hf)
  | engine s' hc hf he =>
    obtain ⟨hcall, -, hk⟩ := (callInv_quantum hc).1 h
    exact (exec_effect he).callInv hc hcall hf hk
  | hostTakes r hc hn => exact callInv_caller rfl
  | schedulerTakes r net s' hc hn he =>
    cases endTurn_result he with
    | aborts | done => exact callInv_caller rfl
    | passes v => exact callInv_caller (advance_control _)
  | schedulerCalls net inputs hc hn => exact startRun_callInv inputs (.inr (by simp [hn]))
  | waits hc hn hq => exact h
  | hostCalls c rest s' hc hn hq he =>
    cases hostCall_move he with
    | run inputs hnet => exact startRun_callInv inputs (.inl hnet)
    | new | network | isHalted | snapshot => exact callInv_caller rfl

/-! ### What the network says of its ring -/

theorem netInv_standalone {s : State} (hn : s.net = none) :
    State.NetInv s ↔ s.before = [] ∧ s.after = [] := by
  simp [State.NetInv, hn]

theorem netInv_running {s : State} {net : Network} (hn : s.net = some net) (hr : net.status = .running) :
    State.NetInv s ↔ net.phase.length = ringSize s := by
  simp [State.NetInv, hn, hr]

/-- While a `run` call can be in progress, the network says only how long the ring is, so a step that leaves
the other Computers alone keeps what it says. -/
theorem netInv_of_callable {s s' : State} (hcall : State.callable s) (hn : s'.net = s.net)
    (hb : s'.before = s.before) (ha : s'.after = s.after) (h : State.NetInv s) : State.NetInv s' := by
  rcases hcall with hnone | hactive
  · rw [netInv_standalone hnone] at h
    exact (netInv_standalone (hn.trans hnone)).2 ⟨hb.trans h.1, ha.trans h.2⟩
  · obtain ⟨net, hnet⟩ := Option.isSome_iff_exists.1 hactive
    obtain ⟨hnet, hr⟩ := activeNet_eq_some.1 hnet
    rw [netInv_running hnet hr] at h
    rw [netInv_running (hn.trans hnet) hr, h]
    simp [ringSize, ring, hb, ha]

theorem startRun_netInv {s : State} (inputs : List Word) (hcall : State.callable s) (h : State.NetInv s) :
    State.NetInv (startRun inputs s) :=
  netInv_of_callable hcall (startRun_net inputs s) (startRun_before inputs s) (startRun_after inputs s) h

/-- A halt that has been returned is the flag (R192). -/
theorem ResultInv.halted {s : State} {outs : List Word} (h : ResultInv (.halted outs) s) :
    s.comp.halted = true := by
  obtain ⟨hcond, -⟩ := h
  exact (conditionOf_halted.1 hcond).2

/-- The end of a turn keeps what the network says: an ended network records the Computer it ended at. -/
theorem TurnResult.netInv {net : Network} {r : RunResult} {s s' : State} (ht : TurnResult net s r s')
    (hn : activeNet s = some net) (hres : ResultInv r s) (h : State.NetInv s) : State.NetInv s' := by
  obtain ⟨hnet, hr⟩ := activeNet_eq_some.1 hn
  have hlen := (netInv_running hnet hr).1 h
  cases ht with
  | aborts f hf => subst hf; exact ⟨hlen, rfl, hres⟩
  | done v hlast hh =>
    refine ⟨hlen, hlast, ?_, rfl⟩
    rcases hh with hh | ⟨outs, rfl⟩
    · exact hh
    · exact hres.halted
  | passes v =>
    refine (netInv_running (net := { net with carried := v }) (advance_net _) hr).2 ?_
    rw [ringSize, advance_ring]
    exact hlen

/-- Every step keeps what the network says of its ring, given what `control` says. -/
theorem Move.netInv {s s' : State} (hm : Move s s') (hci : State.CallInv s) (h : State.NetInv s) :
    State.NetInv s' := by
  cases hm with
  | finished r hc hf => exact netInv_of_callable ((callInv_quantum hc).1 hci).1 rfl rfl rfl h
  | engine s' hc hf he =>
    obtain ⟨-, hb, ha, hn, -⟩ := (exec_effect he).sameSession
    exact netInv_of_callable ((callInv_quantum hc).1 hci).1 hn hb ha h
  | hostTakes r hc hn => exact h
  | schedulerTakes r net s' hc hn he =>
    exact (endTurn_result he).netInv hn ((callInv_returned hc).1 hci).2 h
  | schedulerCalls net inputs hc hn => exact startRun_netInv inputs (.inr (by simp [hn])) h
  | waits hc hn hq => exact h
  | hostCalls c rest s' hc hn hq he =>
    cases hostCall_move he with
    | new image hl => exact ⟨rfl, rfl⟩
    | network image p ps mode hl => exact (netInv_running rfl rfl).2 (by simp [ringSize, ring, newNetwork])
    | run inputs hnet => exact startRun_netInv inputs (.inl hnet) h
    | isHalted | snapshot => exact h

/-- Settles O46, by the cases of `Move`: what `control` says is kept by itself, what the network says with its
help. -/
theorem stepKeepsCallsAndNetworkSound : Obligations.StepKeepsCallsAndNetworkSound :=
  fun _ _ hci hni h => ⟨(step_move h).callInv hci, (step_move h).netInv hci hni⟩

end Sys2Proof.Machine

/-! PROOFS of the family `20_memory.md`: what a read returns, what a write changes and leaves, and why the
canonical form is one. -/

namespace Sys2Proof.Machine

/-! ### Reads and writes of a Computer -/

/-- A legal read (R52): the bound by `mem_size` in R52 is no case of its own, since no cell lies there (R27). -/
theorem memRead_of_below {c : Computer} {a : Int} (hbelow : Memory.below c.mem c.memSize = true) (h0 : 0 ≤ a)
    (h1 : a ≤ amax) : memRead c a = .ok (if a < c.memSize then Memory.read c.mem a.toNat else 0) := by
  rw [memRead_ok h0 h1]
  split
  next => rfl
  next hsize => rw [Memory.read_of_below hbelow (by omega)]

/-- Settles O11: the three ranges of `checkAddr`, and within the legal one the invariant of R27. -/
theorem memReadOfAnyInteger : Obligations.MemReadOfAnyInteger := fun _ _ hbelow =>
  ⟨memRead_negative, memRead_above, memRead_of_below hbelow⟩

/-- Storage after a write, as R53 words it. -/
theorem memWrite_memSize_eq_ite (c : Computer) (a : Nat) (v : Word) :
    (memWrite c a v).memSize = if c.memSize ≤ a then a + 1 else c.memSize := by
  rw [memWrite_memSize]
  split <;> omega

/-- Settles O12: a gap cell is an address other than the written one, and no cell was listed there before. -/
theorem writeThenRead : Obligations.WriteThenRead := by
  intro c a v
  refine ⟨Memory.read_write_same c.mem a v, fun b hb => Memory.read_write_ne c.mem v hb,
    memWrite_memSize_eq_ite c a v, fun hbelow b hsize hba => ?_⟩
  calc Memory.read (memWrite c a v).mem b
      = Memory.read c.mem b := Memory.read_write_ne c.mem v hba.ne
    _ = 0 := Memory.read_of_below hbelow hsize

/-! ### The canonical form -/

@[simp] theorem Memory.read_cons_same (c : Nat × Word) (m : Memory) : Memory.read (c :: m) c.1 = c.2 :=
  if_pos rfl

theorem Memory.read_cons_ne {c : Nat × Word} {a : Nat} (m : Memory) (h : a ≠ c.1) :
    Memory.read (c :: m) a = Memory.read m a := if_neg h

/-- A word other than 0 is read from a cell (R52). -/
theorem Memory.exists_cell_of_read_ne_zero {m : Memory} {a : Nat} (h : Memory.read m a ≠ 0) :
    ∃ c ∈ m, c.1 = a := by
  induction m with
  | nil => exact absurd rfl h
  | cons c m ih =>
    by_cases ha : a = c.1
    · exact ⟨c, List.mem_cons_self, ha.symm⟩
    · rw [Memory.read_cons_ne m ha] at h
      obtain ⟨d, hd, hda⟩ := ih h
      exact ⟨d, List.mem_cons_of_mem c hd, hda⟩

theorem Memory.read_of_above {m : Memory} {a : Nat} (h : Memory.Above a m) : Memory.read m a = 0 := by
  by_contra hne
  obtain ⟨c, hc, rfl⟩ := Memory.exists_cell_of_read_ne_zero hne
  exact lt_irrefl _ (h c hc)

/-- The canonical form lists no 0, so a memory with a cell reads unlike the empty one. -/
theorem Memory.head_read_ne_zero {c : Nat × Word} {m : Memory} (hwf : Memory.wf (c :: m) = true) :
    Memory.read (c :: m) c.1 ≠ 0 := by
  rw [Memory.read_cons_same]
  exact ((Memory.wf_cons c m).1 hwf).1

/-- The head of a canonical memory is its lowest address that does not read 0. -/
theorem Memory.head_le_of_read_ne_zero {c : Nat × Word} {m : Memory} {a : Nat}
    (hwf : Memory.wf (c :: m) = true) (h : Memory.read (c :: m) a ≠ 0) : c.1 ≤ a := by
  obtain ⟨-, habove, -⟩ := (Memory.wf_cons c m).1 hwf
  obtain ⟨d, hd, rfl⟩ := Memory.exists_cell_of_read_ne_zero h
  rcases List.mem_cons.1 hd with rfl | hd
  · exact le_rfl
  · exact (habove d hd).le

/-- Canonical memories that read alike have the same first cell: each head bounds the other from below. -/
theorem Memory.head_eq_of_read_eq {c d : Nat × Word} {m m' : Memory} (hwf : Memory.wf (c :: m) = true)
    (hwf' : Memory.wf (d :: m') = true) (h : ∀ a, Memory.read (c :: m) a = Memory.read (d :: m') a) :
    c = d := by
  have haddr : c.1 = d.1 := le_antisymm
    (Memory.head_le_of_read_ne_zero hwf (h d.1 ▸ Memory.head_read_ne_zero hwf'))
    (Memory.head_le_of_read_ne_zero hwf' (h c.1 ▸ Memory.head_read_ne_zero hwf))
  have hword : c.2 = d.2 := by
    have := h c.1
    rwa [Memory.read_cons_same, haddr, Memory.read_cons_same] at this
  exact Prod.ext haddr hword

/-- A common head can be dropped: at its address both rests read 0, elsewhere it is not seen. -/
theorem Memory.tail_read_eq {c : Nat × Word} {m m' : Memory} (habove : Memory.Above c.1 m)
    (habove' : Memory.Above c.1 m') (h : ∀ a, Memory.read (c :: m) a = Memory.read (c :: m') a) (a : Nat) :
    Memory.read m a = Memory.read m' a := by
  by_cases ha : a = c.1
  · rw [ha, Memory.read_of_above habove, Memory.read_of_above habove']
  · simpa only [Memory.read_cons_ne _ ha] using h a

/-- Settles O13, by induction on the cells: memories that read alike have the same head, and their rests read
alike again. -/
theorem canonicalMemoriesAgree : Obligations.CanonicalMemoriesAgree := by
  intro m
  induction m with
  | nil =>
    intro m' _ hwf' h
    cases m' with
    | nil => rfl
    | cons d m' => exact absurd (h d.1).symm (Memory.head_read_ne_zero hwf')
  | cons c m ih =>
    intro m' hwf hwf' h
    cases m' with
    | nil => exact absurd (h c.1) (Memory.head_read_ne_zero hwf)
    | cons d m' =>
      obtain rfl := Memory.head_eq_of_read_eq hwf hwf' h
      obtain ⟨-, habove, hm⟩ := (Memory.wf_cons c m).1 hwf
      obtain ⟨-, habove', hm'⟩ := (Memory.wf_cons c m').1 hwf'
      rw [ih m' hm hm' (Memory.tail_read_eq habove habove' h)]

end Sys2Proof.Machine

/-! PROOFS of the family `30_encoding.md`: the fields of a word and of an encoded instruction, what a decoded
word encodes to, and the canonical opcode words. -/

namespace Sys2Proof

/-! ### The fields of a word -/

/-- The opcode field as the floored remainder of R82. -/
theorem opcodeField_cast {w : Word} (h : 0 ≤ w.toInt) : (opcodeField w : Int) = w.toInt % 100 := by
  simp only [opcodeField]; omega

/-- A mode digit as the quotient and remainder of R83. -/
theorem modeDigit_cast {w : Word} (h : 0 ≤ w.toInt) (i : Nat) :
    ((modeDigit w i).val : Int) = w.toInt / (100 * 10 ^ i) % 10 := by
  simp [modeDigit, Int.toNat_of_nonneg h]

/-- The only instruction of the illegal space with a given opcode value. -/
theorem Instr.eq_illegal_of_isIllegal {i : Instr} (h : i.isIllegal = true) : i = .illegal i.opcode := by
  cases i with
  | illegal op => rfl
  | _ => cases h

namespace DecodesTo

variable {w : Word} {i : Instr}

/-- Only words that are not negative are instructions (R90). -/
theorem nonneg (hd : DecodesTo w i) (hl : i.isIllegal = false) : 0 ≤ w.toInt := by
  cases hd with
  | negative | illegal => cases hl
  | _ h => exact h

theorem opcode (hd : DecodesTo w i) (h0 : 0 ≤ w.toInt) : i.opcode = w.toInt % 100 := by
  rw [← opcodeField_cast h0]
  cases hd with
  | negative h => omega
  | illegal _ op ho => rw [ho]; rfl
  | _ _ ho => rw [ho]; rfl

theorem digits (hd : DecodesTo w i) : i.digits = (List.range i.arity).map (modeDigit w) := by
  cases hd <;> rfl

theorem isIllegal_iff (hd : DecodesTo w i) (h0 : 0 ≤ w.toInt) :
    i.isIllegal = true ↔ opcodeField w ∉ ([1, 2, 3, 4, 5, 6, 7, 8, 9, 99] : List Nat) := by
  cases hd with
  | negative h => omega
  | illegal _ op ho hn => exact ⟨fun _ => ho ▸ hn, fun _ => rfl⟩
  | _ _ ho => simp [ho, Instr.isIllegal]

end DecodesTo

/-- Settles O3: each clause is a field of `decode_cases`, read as an integer. -/
theorem fieldsOfAnOpcodeWord : Obligations.FieldsOfAnOpcodeWord := fun w h0 =>
  ⟨(decode_cases w).opcode h0, fun i _ => modeDigit_cast h0 i, (decode_cases w).digits⟩

/-- Which words that are not negative are illegal (R89). -/
theorem decode_isIllegal_iff {w : Word} (h0 : 0 ≤ w.toInt) :
    (decode w).isIllegal = true ↔ w.toInt % 100 ∉ ([1, 2, 3, 4, 5, 6, 7, 8, 9, 99] : List Int) := by
  rw [(decode_cases w).isIllegal_iff h0, ← opcodeField_cast h0]
  simp only [List.mem_cons, List.not_mem_nil, or_false]
  omega

/-- An illegal word that is not negative carries its opcode field (R89). -/
theorem decode_eq_illegal {w : Word} (h0 : 0 ≤ w.toInt) (hi : (decode w).isIllegal = true) :
    decode w = .illegal (w.toInt % 100) := by
  rw [← (decode_cases w).opcode h0]
  exact Instr.eq_illegal_of_isIllegal hi

/-- Settles O4: R89 for the words that are not negative, R90 for the others. -/
theorem illegalWords : Obligations.IllegalWords := fun _ =>
  ⟨fun h0 => ⟨decode_isIllegal_iff h0, decode_eq_illegal h0⟩, decode_negative⟩

/-! ### Encoding what a word decodes to

Each format puts the opcode and the first digits back where they were (R85). -/

section
variable {w : Word} {op : Nat}

theorem opcodeField_lt (w : Word) : opcodeField w < 100 := Nat.mod_lt _ (by decide)

theorem encode1_of_fields (h0 : 0 ≤ w.toInt) (ho : opcodeField w = op) :
    (encode1 op (modeDigit w 0)).toInt = w.toInt % (100 * 10 ^ 1) := by
  have hop := opcodeField_cast h0
  have hm0 := modeDigit_cast h0 0
  rw [encode1_toInt _ (ho ▸ opcodeField_lt w), ← ho]
  omega

theorem encode2_of_fields (h0 : 0 ≤ w.toInt) (ho : opcodeField w = op) :
    (encode2 op (modeDigit w 0) (modeDigit w 1)).toInt = w.toInt % (100 * 10 ^ 2) := by
  have hop := opcodeField_cast h0
  have hm0 := modeDigit_cast h0 0
  have hm1 := modeDigit_cast h0 1
  rw [encode2_toInt _ _ (ho ▸ opcodeField_lt w), ← ho]
  omega

theorem encode3_of_fields (h0 : 0 ≤ w.toInt) (ho : opcodeField w = op) :
    (encode3 op (modeDigit w 0) (modeDigit w 1) (modeDigit w 2)).toInt = w.toInt % (100 * 10 ^ 3) := by
  have hop := opcodeField_cast h0
  have hm0 := modeDigit_cast h0 0
  have hm1 := modeDigit_cast h0 1
  have hm2 := modeDigit_cast h0 2
  rw [encode3_toInt _ _ _ (ho ▸ opcodeField_lt w), ← ho]
  omega

end

/-- An instruction's word without the digits that are never examined (R91 b). -/
theorem DecodesTo.encode_toInt {w : Word} {i : Instr} (hd : DecodesTo w i) (hl : i.isIllegal = false) :
    (encode i).toInt = w.toInt % (100 * 10 ^ i.arity) := by
  cases hd with
  | negative | illegal => cases hl
  | add h0 ho | mul h0 ho | lt h0 ho | eq h0 ho => exact encode3_of_fields h0 ho
  | jt h0 ho | jf h0 ho => exact encode2_of_fields h0 ho
  | input h0 ho | output h0 ho | arb h0 ho => exact encode1_of_fields h0 ho
  | halt h0 ho =>
    calc (encode .halt).toInt = (opcodeField w : Int) := by rw [ho]; rfl
      _ = w.toInt % 100 := opcodeField_cast h0

/-- Settles O2: by the cases of `DecodesTo`, each format keeps the opcode and the digits it has. -/
theorem encodeOfDecode : Obligations.EncodeOfDecode := fun w hl =>
  ⟨(decode_cases w).nonneg hl, (decode_cases w).encode_toInt hl⟩

/-! ### Decoding what an instruction encodes to

The formats F1R, F1W and F2R are F3W with the digits they lack 0, so the fields are said once, for `encode3`. -/

theorem encode1_eq_encode3 (op : Nat) (m0 : Digit) : encode1 op m0 = encode3 op m0 0 0 := rfl

theorem encode2_eq_encode3 (op : Nat) (m0 m1 : Digit) : encode2 op m0 m1 = encode3 op m0 m1 0 := rfl

section
variable {op : Nat} (m0 m1 m2 : Digit)

theorem encode3_nonneg (h : op < 100) : 0 ≤ (encode3 op m0 m1 m2).toInt := by
  rw [encode3_toInt m0 m1 m2 h]; omega

@[simp] theorem opcodeField_encode3 (h : op < 100) : opcodeField (encode3 op m0 m1 m2) = op := by
  rw [(fields_of_toInt (encode3_toInt m0 m1 m2 h)).1]; omega

@[simp] theorem modeDigit_encode3 (h : op < 100) :
    modeDigit (encode3 op m0 m1 m2) 0 = m0 ∧ modeDigit (encode3 op m0 m1 m2) 1 = m1 ∧
      modeDigit (encode3 op m0 m1 m2) 2 = m2 := by
  simp only [(fields_of_toInt (encode3_toInt m0 m1 m2 h)).2]
  exact ⟨digit_eq (by omega), digit_eq (by omega), digit_eq (by omega)⟩

end

theorem illegalOpcode_iff {op : Int} :
    illegalOpcode op = true ↔ (-99 ≤ op ∧ op ≤ 0) ∨ (10 ≤ op ∧ op ≤ 98) := by
  simp [illegalOpcode]

/-- An opcode value of the illegal space, taken as a word, decodes to itself (R89, R90). -/
theorem decode_encode_illegal {op : Int} (h : illegalOpcode op = true) :
    decode (encode (.illegal op)) = .illegal op := by
  rw [illegalOpcode_iff] at h
  have hw : (encode (.illegal op)).toInt = op :=
    toInt_ofInt ⟨by simp only [wordMin]; omega, by simp only [wordMax]; omega⟩
  by_cases hneg : op < 0
  · rw [decode_negative (by omega), hw, tmod_small (by omega) (by omega)]
  · have h0 : 0 ≤ (encode (.illegal op)).toInt := by omega
    have hmod : op % 100 = op := Int.emod_eq_of_lt (by omega) (by omega)
    have hi : (decode (encode (.illegal op))).isIllegal = true := by
      rw [decode_isIllegal_iff h0, hw, hmod]
      simp only [List.mem_cons, List.not_mem_nil, or_false]
      omega
    rw [decode_eq_illegal h0 hi, hw, hmod]

/-- Settles O1: the opcode field of an encoded instruction picks its own row of `decode_nonneg`, and the digits
stand in their places. -/
theorem decodeOfEncode : Obligations.DecodeOfEncode := by
  intro i hi
  cases i with
  | add m0 m1 m2 | mul m0 m1 m2 | lt m0 m1 m2 | eq m0 m1 m2 => simp [encode, decode_nonneg, encode3_nonneg]
  | jt m0 m1 | jf m0 m1 => simp [encode, encode2_eq_encode3, decode_nonneg, encode3_nonneg]
  | input m0 | output m0 | arb m0 => simp [encode, encode1_eq_encode3, decode_nonneg, encode3_nonneg]
  | halt => decide
  | illegal op => exact decode_encode_illegal hi

/-! ### The canonical opcode words -/

/-- The modes of a read parameter, as R95 runs through them. -/
def readModes : List Digit := [0, 1, 2]

/-- The modes of a write parameter, as R95 runs through them. -/
def writeModes : List Digit := [0, 2]

theorem mem_readModes {d : Digit} : d ∈ readModes ↔ Digit.readMode d = true := by
  simp [readModes, Digit.readMode, or_assoc]

theorem mem_writeModes {d : Digit} : d ∈ writeModes ↔ Digit.writeMode d = true := by
  simp [writeModes, Digit.writeMode]

/-- The well-formed instructions of format F2R of one opcode, in the order of R95. -/
def instrsF2R (f : Digit → Digit → Instr) : List Instr :=
  readModes.flatMap fun m1 => readModes.map fun m0 => f m0 m1

/-- The well-formed instructions of format F3W of one opcode, in the order of R95. -/
def instrsF3W (f : Digit → Digit → Digit → Instr) : List Instr :=
  writeModes.flatMap fun m2 => instrsF2R fun m0 m1 => f m0 m1 m2

theorem mem_instrsF2R {f : Digit → Digit → Instr} {i : Instr} :
    i ∈ instrsF2R f ↔
      ∃ m0 m1, Digit.readMode m0 = true ∧ Digit.readMode m1 = true ∧ f m0 m1 = i := by
  simp only [instrsF2R, List.mem_flatMap, List.mem_map, mem_readModes]
  exact ⟨fun ⟨m1, h1, m0, h0, e⟩ => ⟨m0, m1, h0, h1, e⟩,
    fun ⟨m0, m1, h0, h1, e⟩ => ⟨m1, h1, m0, h0, e⟩⟩

theorem mem_instrsF3W {f : Digit → Digit → Digit → Instr} {i : Instr} :
    i ∈ instrsF3W f ↔
      ∃ m0 m1 m2, Digit.readMode m0 = true ∧ Digit.readMode m1 = true ∧ Digit.writeMode m2 = true ∧
        f m0 m1 m2 = i := by
  simp only [instrsF3W, List.mem_flatMap, mem_instrsF2R, mem_writeModes]
  exact ⟨fun ⟨m2, h2, m0, m1, h0, h1, e⟩ => ⟨m0, m1, m2, h0, h1, h2, e⟩,
    fun ⟨m0, m1, m2, h0, h1, h2, e⟩ => ⟨m2, h2, m0, m1, h0, h1, e⟩⟩

/-- The well-formed instructions, in the order of `canonicalWords`. -/
def canonicalInstrs : List Instr :=
  [Instr.halt] ++ readModes.map Instr.output ++ readModes.map Instr.arb ++ writeModes.map Instr.input ++
    instrsF2R Instr.jt ++ instrsF2R Instr.jf ++ instrsF3W Instr.add ++ instrsF3W Instr.mul ++
    instrsF3W Instr.lt ++ instrsF3W Instr.eq

theorem mem_canonicalInstrs {i : Instr} :
    i ∈ canonicalInstrs ↔ i.isIllegal = false ∧ i.wellFormed = true := by
  cases i with
  | add | mul | lt | eq | jt | jf =>
    simp [canonicalInstrs, mem_instrsF2R, mem_instrsF3W, Instr.isIllegal, Instr.wellFormed, and_assoc]
  | input | output | arb =>
    simp [canonicalInstrs, mem_instrsF2R, mem_instrsF3W, mem_readModes, mem_writeModes, Instr.isIllegal,
      Instr.wellFormed]
  | halt => simp [canonicalInstrs, Instr.isIllegal, Instr.wellFormed]
  | illegal => simp [canonicalInstrs, mem_instrsF2R, mem_instrsF3W, Instr.isIllegal]

/-- The words R95 writes out are the encodings of those instructions, one by one. -/
theorem canonicalWords_eq : Machine.canonicalWords = canonicalInstrs.map fun i => (encode i).toInt := by
  decide

theorem Instr.encodable_of_not_isIllegal {i : Instr} (hl : i.isIllegal = false) : i.encodable = true := by
  cases i with
  | illegal op => cases hl
  | _ => rfl

theorem mem_canonicalWords {w : Word} :
    w.toInt ∈ Machine.canonicalWords ↔ ∃ i ∈ canonicalInstrs, encode i = w := by
  simp only [canonicalWords_eq, List.mem_map, BitVec.toInt_inj]

/-- Settles O5: a canonical word is the encoding of a well-formed instruction, and by O1 that instruction is what
it decodes to. -/
theorem canonicalWordsAreThoseListed : Obligations.CanonicalWordsAreThoseListed := by
  refine ⟨rfl, fun w => mem_canonicalWords.trans ⟨?_, ?_⟩⟩
  · rintro ⟨i, hi, rfl⟩
    obtain ⟨hl, hwf⟩ := mem_canonicalInstrs.1 hi
    rw [decodeOfEncode i (Instr.encodable_of_not_isIllegal hl)]
    exact ⟨hl, hwf, rfl⟩
  · rintro ⟨hl, hwf, he⟩
    exact ⟨decode w, mem_canonicalInstrs.2 ⟨hl, hwf⟩, he⟩

end Sys2Proof

/-! PROOFS of the family `40_operands.md`: what a parameter resolves to in each mode, and the order of the checks
inside one. -/

namespace Sys2Proof.Machine

/-! ### The checks before the parameter word is used -/

/-- A word is never above the highest address: only a sum with `rb` can be. -/
theorem toInt_le_amax (w : Word) : w.toInt ≤ amax := (Word.inRange w).2

/-- A parameter word whose own address is above `AMAX` cannot be fetched (R110). -/
theorem paramWord_above {c : Computer} {i : Nat} (h : amax < c.pc + 1 + i) :
    paramWord c i = .error ⟨.overflow, .value (c.pc + 1 + i)⟩ :=
  memRead_above (by omega)

theorem readParam_of_modeOf_none {c : Computer} {d : Digit} (i : Nat) (h : modeOf d = none) :
    readParam c i d = .error ⟨.invalidMode, .digit i d⟩ := by
  rw [readParam, h]

theorem writeAddr_of_modeOf_none {c : Computer} {d : Digit} (i : Nat) (h : modeOf d = none) :
    writeAddr c i d = .error ⟨.invalidMode, .digit i d⟩ := by
  rw [writeAddr, h]

theorem writeAddr_immediate (c : Computer) (i : Nat) :
    writeAddr c i 1 = .error ⟨.invalidWriteMode, .param i⟩ := rfl

/-- With a digit that is a mode, a fetch that fails is all that is left of a read parameter. -/
theorem readParam_of_fetch_error {c : Computer} {i : Nat} {d : Digit} {t : Trap} (hd : d ≤ 2)
    (hp : paramWord c i = .error t) : readParam c i d = .error t := by
  cases hm : modeOf d with
  | none => exact absurd (modeOf_none.1 hm) (not_le.2 (hd.trans_lt (by decide)))
  | some m => rw [readParam, hm, hp]

/-- With a digit that is a write mode, a fetch that fails is all that is left of a write parameter. -/
theorem writeAddr_of_fetch_error {c : Computer} {i : Nat} {d : Digit} {t : Trap} (hd : d = 0 ∨ d = 2)
    (hp : paramWord c i = .error t) : writeAddr c i d = .error t := by
  rcases hd with rfl | rfl
  · rw [writeAddr, modeOf_position.2 rfl, hp]
  · rw [writeAddr, modeOf_relative.2 rfl, hp]

/-- Settles O10: a digit that is no mode and immediate mode on a write parameter fail whatever the fetch would
answer; with any other digit the failing fetch is the parameter's fault. -/
theorem digitsAreCheckedBeforeFetching : Obligations.DigitsAreCheckedBeforeFetching := fun c i _ =>
  ⟨fun hd => ⟨readParam_of_modeOf_none i (modeOf_none.2 hd), writeAddr_of_modeOf_none i (modeOf_none.2 hd)⟩,
    writeAddr_immediate c i,
    fun h => ⟨fun hd => readParam_of_fetch_error hd (paramWord_above h),
      fun hd => writeAddr_of_fetch_error hd (paramWord_above h)⟩⟩

/-! ### What a fetched parameter word resolves to

One equation per mode: a read is `memRead` and a target `checkAddr` of the effective address, so that the rules
of an address check say the rest. -/

section Fetched
variable {c : Computer} {i : Nat} {p : Word}

theorem readParam_position (hp : paramWord c i = .ok p) : readParam c i 0 = memRead c p.toInt := by
  rw [readParam, modeOf_position.2 rfl, hp]

theorem readParam_immediate (hp : paramWord c i = .ok p) : readParam c i 1 = .ok p := by
  rw [readParam, modeOf_immediate.2 rfl, hp]

theorem readParam_relative (hp : paramWord c i = .ok p) :
    readParam c i 2 = memRead c (c.rb.toInt + p.toInt) := by
  rw [readParam, modeOf_relative.2 rfl, hp]

theorem writeAddr_position (hp : paramWord c i = .ok p) : writeAddr c i 0 = checkAddr p.toInt := by
  rw [writeAddr, modeOf_position.2 rfl, hp]

theorem writeAddr_relative (hp : paramWord c i = .ok p) :
    writeAddr c i 2 = checkAddr (c.rb.toInt + p.toInt) := by
  rw [writeAddr, modeOf_relative.2 rfl, hp]

end Fetched

/-- Settles O7: the parameter word itself is the address, so it is at most `AMAX`; at or beyond storage no cell
is listed (R27). -/
theorem positionAndImmediateParameters : Obligations.PositionAndImmediateParameters := by
  rintro c i p hpc rfl
  have hp := paramWord_ok hpc
  rw [readParam_position hp, readParam_immediate hp, writeAddr_position hp]
  refine ⟨fun h0 => memRead_ok h0 (toInt_le_amax _), memRead_negative, fun hbelow hsize => ?beyond, rfl,
    fun h0 => checkAddr_ok h0 (toInt_le_amax _), checkAddr_negative⟩
  case beyond =>
    rw [memRead_ok (by omega) (toInt_le_amax _), Memory.read_of_below hbelow (by omega)]

/-- Settles O8: the address is the exact sum, in one of the three ranges of an address check. -/
theorem relativeParameters : Obligations.RelativeParameters := by
  rintro c i p hpc rfl
  have hp := paramWord_ok hpc
  rw [readParam_relative hp, writeAddr_relative hp]
  exact ⟨fun h0 h1 => ⟨memRead_ok h0 h1, checkAddr_ok h0 h1⟩,
    fun h => ⟨memRead_negative h, checkAddr_negative h⟩,
    fun h => ⟨memRead_above h, checkAddr_above h⟩⟩

/-! ### A target that does not resolve -/

/-- Parameter 2 is resolved last (R120): when the operands resolve, its defect is the first one. -/
theorem readTwoTarget_of_target_error {c : Computer} {m0 m1 m2 : Digit} {a b : Word} {t : Trap}
    (ha : readParam c 0 m0 = .ok a) (hb : readParam c 1 m1 = .ok b) (ht : writeAddr c 2 m2 = .error t) :
    readTwoTarget c m0 m1 m2 = .error t := by
  simp only [readTwoTarget, readTwo_eq_ok.2 ⟨ha, hb⟩, ht]

/-- The defect of the target is taken before the result `f` is looked at. -/
theorem binary_raises_of_target_error {op : Int} {m0 m1 m2 : Digit} {f : Word → Word → Except Trap Word}
    {s : State} {a b : Word} {t : Trap} (ha : readParam s.comp 0 m0 = .ok a)
    (hb : readParam s.comp 1 m1 = .ok b) (ht : writeAddr s.comp 2 m2 = .error t) :
    Raises (binary op m0 m1 m2 f s) op t s :=
  raises_orRaise (readTwoTarget_of_target_error ha hb ht)

/-- IN looks at its target once a value is queued (R140, R142). -/
theorem execInput_raises_of_target_error {m0 : Digit} {s : State} {t : Trap} (hq : s.comp.inq ≠ [])
    (ht : writeAddr s.comp 0 m0 = .error t) : Raises (execInput m0 s) 3 t s := by
  obtain ⟨v, rest, hv⟩ := List.exists_cons_of_ne_nil hq
  rw [execInput, hv]
  exact raises_orRaise ht

/-- Settles O9: immediate mode is a defect of the target, whatever the Computer. -/
theorem immediateWriteIsInvalid : Obligations.ImmediateWriteIsInvalid := by
  intro m0 m1 s a b
  refine ⟨fun ha hb => ?fourWords,
    fun hq => execInput_raises_of_target_error hq (writeAddr_immediate s.comp 0)⟩
  case fourWords =>
    have hraise (op : Int) (f : Word → Word → Except Trap Word) :
        Raises (binary op m0 m1 1 f s) op ⟨.invalidWriteMode, .param 2⟩ s :=
      binary_raises_of_target_error ha hb (writeAddr_immediate s.comp 2)
    exact ⟨hraise 1 sum, hraise 2 product, hraise 7 fun a b => .ok (lessThan a b),
      hraise 8 fun a b => .ok (equalTo a b)⟩

end Sys2Proof.Machine

/-! PROOFS of the family `41_arithmetic.md`: what ADD and MUL store, what a result out of range does, and the frame
of the four-word instructions. -/

namespace Sys2Proof.Machine

/-! ### A result that is stored -/

/-- The commit of a storing instruction, with `q` left in the queue, is what `StoresInt` describes (R53, R183). -/
theorem storesInt_memWrite (s : State) (t : Nat) (v : Word) (n : Nat) (q : List Word) :
    StoresInt s { s with comp := { memWrite { s.comp with inq := q } t v with pc := n } } t v.toInt n q :=
  ⟨congrArg BitVec.toInt (Memory.read_write_same s.comp.mem t v),
    fun _ hx => Memory.read_write_ne s.comp.mem v hx,
    rfl, rfl, rfl, rfl, rfl, rfl, rfl, rfl, rfl, rfl, rfl, rfl, rfl, rfl, rfl⟩

/-- A four-word instruction whose checks all pass stores its result, which as an integer is `x`. -/
theorem binary_stores {op : Int} {m0 m1 m2 : Digit} {f : Word → Word → Except Trap Word} {s : State}
    {a b v : Word} {t : Nat} {x : Int} (ha : readParam s.comp 0 m0 = .ok a)
    (hb : readParam s.comp 1 m1 = .ok b) (ht : writeAddr s.comp 2 m2 = .ok t) (hv : f a b = .ok v)
    (hx : v.toInt = x) (hpc : s.comp.pc + 4 ≤ amax) (hcap : t ≤ s.cfg.memCap) :
    ∃ s', binary op m0 m1 m2 f s = .next s' ∧ StoresInt s s' t x (s.comp.pc + 4) s.comp.inq := by
  rw [binary_of_operands ha hb ht, hv, nextPc_ok hpc, orRaise_ok, orRaise_ok, store_ok hcap, ← hx]
  exact ⟨_, rfl, storesInt_memWrite s t v _ s.comp.inq⟩

/-- Settles O16: a sum in range is the word that stands for it. -/
theorem addStoresTheSum : Obligations.AddStoresTheSum :=
  fun _ _ _ _ _ _ _ ha hb ht hr => binary_stores ha hb ht (inWord_ok hr) (toInt_ofInt hr)

/-- Settles O17: a product in range is the word that stands for it. -/
theorem mulStoresTheProduct : Obligations.MulStoresTheProduct :=
  fun _ _ _ _ _ _ _ ha hb ht hr => binary_stores ha hb ht (inWord_ok hr) (toInt_ofInt hr)

/-! ### A result out of range -/

/-- Where the operands and the target resolve, the result is the next check (R130, R131). -/
theorem binary_raises_of_result_error {op : Int} {m0 m1 m2 : Digit} {f : Word → Word → Except Trap Word}
    {s : State} {a b : Word} {t : Nat} {e : Trap} (ha : readParam s.comp 0 m0 = .ok a)
    (hb : readParam s.comp 1 m1 = .ok b) (ht : writeAddr s.comp 2 m2 = .ok t) (he : f a b = .error e) :
    Raises (binary op m0 m1 m2 f s) op e s := by
  rw [binary_of_operands ha hb ht]
  exact raises_orRaise he

/-- Settles O28: `InWord` is the first check after the parameters in all three, before that of the next `pc`. -/
theorem resultsOutOfRangeOverflow : Obligations.ResultsOutOfRangeOverflow := by
  intro m0 m1 m2 s a b t ha
  refine ⟨fun hb ht hr => ?add, fun hb ht hr => ?mul, fun hr => ?arb⟩
  case add => exact binary_raises_of_result_error ha hb ht (inWord_error hr)
  case mul => exact binary_raises_of_result_error ha hb ht (inWord_error hr)
  case arb =>
    rw [exec, execArb_of_operand ha]
    exact raises_orRaise (inWord_error hr)

/-! ### The frame of the four-word instructions -/

/-- ADD, MUL, LT and EQ are one shape: they differ in the opcode a fault records and in the result. -/
theorem exec_eq_binary {i : Instr} {m0 m1 m2 : Digit}
    (hi : i = .add m0 m1 m2 ∨ i = .mul m0 m1 m2 ∨ i = .lt m0 m1 m2 ∨ i = .eq m0 m1 m2) (s : State) :
    ∃ op f, exec i s = binary op m0 m1 m2 f s := by
  rcases hi with rfl | rfl | rfl | rfl
  case inl => exact ⟨1, sum, rfl⟩
  case inr.inl => exact ⟨2, product, rfl⟩
  case inr.inr.inl => exact ⟨7, fun a b => .ok (lessThan a b), rfl⟩
  case inr.inr.inr => exact ⟨8, fun a b => .ok (equalTo a b), rfl⟩

/-- The taking of a fault ends the call with the record it has set. -/
theorem raised_goesOnOrFaults (op : Int) (t : Trap) (s : State) : GoesOnOrFaults s (raised op t s) :=
  .inr ⟨faultRecord op t s, rfl, rfl⟩

/-- Settles O35: a fault leaves memory alone, and a commit writes at the target of parameter 2 only. -/
theorem storingInstructionsFrame : Obligations.StoringInstructionsFrame := by
  intro i m0 m1 m2 s s' hi h
  have hsame : SameSession s s' := (exec_effect h).sameSession
  obtain ⟨op, f, hbin⟩ := exec_eq_binary hi s
  rcases binary_next (hbin ▸ h) with ⟨e, rfl⟩ | ⟨a, b, t, v, -, -, ht, -, -, -, rfl⟩
  · exact ⟨fun _ _ => rfl, .inl rfl, rfl, rfl, rfl, rfl, raised_goesOnOrFaults op e s, hsame⟩
  · exact ⟨fun _ hx => Memory.read_write_ne s.comp.mem v (hx t ht), .inr ⟨t, ht, rfl⟩, rfl, rfl, rfl, rfl,
      .inl ⟨rfl, rfl⟩, hsame⟩

end Sys2Proof.Machine

/-! PROOFS of the family `42_io.md`: what IN stores, when it suspends and how it resumes, what OUT emits, and the
frames of IN and of the instructions that store nothing. -/

namespace Sys2Proof.Machine

/-! ### What an instruction does to the log and to the call in progress -/

/-- An instruction leaves the log as it is or appends one value (R29, R141). -/
theorem Effect.outLog_eq_or_append {i : Instr} {s s' : State} (h : Effect i s s') :
    s'.comp.outLog = s.comp.outLog ∨ ∃ a, s'.comp.outLog = s.comp.outLog ++ [a] := by
  cases h with
  | emitted m0 a => exact .inr ⟨a, rfl⟩
  | raised | binary | suspended | consumed | jumped | based | halted => exact .inl rfl

/-- The `run` call goes on or ends with a fault, except at an IN with nothing queued and at HALT (R185). -/
theorem Effect.goesOnOrFaults_or_ends {i : Instr} {s s' : State} (h : Effect i s s') :
    GoesOnOrFaults s s' ∨ ((∃ m0, i = .input m0) ∧ s.comp.inq = []) ∨
      (i = .halt ∧ s'.control = .returned (.halted (callOuts s))) := by
  cases h with
  | raised t => exact .inl (raised_goesOnOrFaults i.opcode t s)
  | suspended m0 hi hq => exact .inr (.inl ⟨⟨m0, hi⟩, hq⟩)
  | halted hi => exact .inr (.inr ⟨hi, rfl⟩)
  | binary | consumed | emitted | jumped | based => exact .inl (.inl ⟨rfl, rfl⟩)

/-! ### IN -/

/-- IN looks at its queue before anything else (R142). -/
theorem execInput_of_empty (m0 : Digit) {s : State} (hq : s.comp.inq = []) :
    execInput m0 s = .next (suspend s) := by
  rw [execInput, hq]

/-- Settles O20: with a value queued and every check passed, what is left of IN is the commit. -/
theorem inStoresTheOldestInput : Obligations.InStoresTheOldestInput := by
  intro m0 s v rest t hq ht hpc hcap
  rw [exec, execInput_of_target hq ht, nextPc_ok hpc, orRaise_ok]
  exact ⟨_, store_ok hcap, storesInt_memWrite s t v _ rest⟩

/-- Settles O36, by the three things IN can do: only a commit touches memory and the queue. -/
theorem inputFrame : Obligations.InputFrame := by
  intro m0 s s' h
  have hsame : SameSession s s' := (exec_effect h).sameSession
  rcases execInput_next h with ⟨-, rfl⟩ | ⟨e, rfl⟩ | ⟨v, rest, t, hq, ht, -, -, rfl⟩
  · exact ⟨fun _ _ => rfl, .inl rfl, .inl rfl, rfl, rfl, rfl, hsame, .inr ⟨rfl, rfl⟩⟩
  · exact ⟨fun _ _ => rfl, .inl rfl, .inl rfl, rfl, rfl, rfl, hsame, .inl (raised_goesOnOrFaults 3 e s)⟩
  · exact ⟨fun _ hx => Memory.read_write_ne s.comp.mem v (hx t ht), .inr ⟨t, ht, rfl⟩,
      .inr (congrArg List.tail hq).symm, rfl, rfl, rfl, hsame, .inl (.inl ⟨rfl, rfl⟩)⟩

/-! ### Suspension and resumption -/

/-- A suspended call is the work of an IN with nothing queued: whatever goes on, faults or halts returns
something else. -/
theorem Effect.input_of_suspended {i : Instr} {s s' : State} {outs : List Word} (h : Effect i s s')
    (hc : s.control = .quantum) (hs : s'.control = .returned (.suspended outs)) :
    (∃ m0, i = .input m0) ∧ s.comp.inq = [] := by
  rcases h.goesOnOrFaults_or_ends with (⟨hgo, -⟩ | ⟨f, hf, -⟩) | hin | ⟨-, hhalt⟩
  · simp [hs, hc] at hgo
  · simp [hs] at hf
  · exact hin
  · simp [hs] at hhalt

/-- The host's `run` call on a standalone Computer (R185). -/
theorem step_of_run {s : State} {inputs : List Word} {rest : List HostCall} (hc : s.control = .caller)
    (hn : s.net = none) (hq : s.calls = .run inputs :: rest) :
    step s = .next (startRun inputs { s with calls := rest }) := by
  simp only [step, hc, callerStep, activeNet_none_of_net hn, hostStep, hq, hostCall, hn]

/-- Inside a `run` call, a Computer that has not finished executes the instruction at `pc` (R180 to R182). -/
theorem step_of_quantum {s : State} {i : Instr} (hc : s.control = .quantum) (hf : finished s.comp = none)
    (hd : decode (fetch s.comp) = i) : step s = exec i s := by
  simp only [step, hc, engineStep, hf, hd]

/-- Settles O21: the empty queue is IN's first test; no other effect of an instruction suspends; and a later
call changes nothing the fetch looks at, so that the same IN is decoded. -/
theorem inSuspendsOnAnEmptyQueue : Obligations.InSuspendsOnAnEmptyQueue := by
  refine ⟨fun m0 s hq => ?suspends, fun i s s' outs hc h => (exec_effect h).input_of_suspended hc,
    fun m0 s v vs rest hc hn hcalls hfault hh hq hd => ?resumes⟩
  case suspends =>
    have h : exec (.input m0) s = .next (suspend s) := execInput_of_empty m0 hq
    exact ⟨suspend s, h, rfl, rfl, (exec_effect h).sameSession⟩
  case resumes =>
    have hf : finished s.comp = none := finished_eq_none.2 ⟨hfault, hh⟩
    refine ⟨startRun (v :: vs) { s with calls := rest }, step_of_run hc hn hcalls, ?_⟩
    rw [startRun_begins (s := { s with calls := rest }) _ hf]
    exact ⟨by simp only [hq, List.nil_append], step_of_quantum rfl hf hd⟩

/-! ### OUT -/

/-- Settles O22: the checks of OUT are its parameter and then its next `pc`; the value is emitted after both. -/
theorem outEmitsTheOperand : Obligations.OutEmitsTheOperand := by
  intro m0 s
  refine ⟨fun e he => raises_orRaise he, fun a ha => ?_⟩
  rw [exec, execOutput_of_operand ha]
  refine ⟨fun hpc => ?emits, fun hpc => raises_orRaise (nextPc_error hpc)⟩
  case emits =>
    rw [nextPc_ok hpc, orRaise_ok]
    exact ⟨_, rfl, rfl, rfl, rfl, rfl, rfl, rfl, rfl, rfl, rfl⟩

/-! ### The frame of the instructions that store nothing -/

/-- Settles O37: by O39 each item of the Computer has its one writer, and none of these instructions is the
writer of memory, of `halted` or of the queue, or ends the call but by a fault. -/
theorem nonStoringInstructionsFrame : Obligations.NonStoringInstructionsFrame := by
  intro i m0 m1 s s' hi h
  have heff := exec_effect h
  obtain ⟨hrb, hhalted, hinq, hlog, hmem⟩ := writersOfEachItem i s s' h
  obtain ⟨hwrite, hhalt, hinput, houtput, harb⟩ :
      Role.write ∉ i.roles ∧ i ≠ .halt ∧ (¬ ∃ m, i = .input m) ∧
        (i ≠ .output m0 → ¬ ∃ m, i = .output m) ∧ (i ≠ .arb m0 → ¬ ∃ m, i = .arb m) := by
    rcases hi with rfl | rfl | rfl | rfl <;> simp [Instr.roles]
  have hcontrol : GoesOnOrFaults s s' := by
    rcases heff.goesOnOrFaults_or_ends with hgo | ⟨hin, -⟩ | ⟨hend, -⟩
    · exact hgo
    · exact absurd hin hinput
    · exact absurd hend hhalt
  exact ⟨not_not.1 (mt hmem hwrite), not_not.1 (mt hhalted hhalt), not_not.1 (mt hinq hinput),
    fun hne => not_not.1 (mt hlog (houtput hne)), heff.outLog_eq_or_append,
    fun hne => not_not.1 (mt hrb (harb hne)), hcontrol, heff.sameSession⟩

end Sys2Proof.Machine

/-! PROOFS of the family `43_jumps.md`: where JT and JF go, and the target that a taken jump cannot use. -/

namespace Sys2Proof.Machine

/-! ### A jump whose operands resolve -/

/-- The commit of a jump moves `pc` and nothing else (R183). -/
theorem setPc_completes (n : Nat) (s : State) :
    ∃ s', setPc n s = .next s' ∧ s'.comp = { s.comp with pc := n } ∧ s'.control = s.control ∧
      SameSession s s' :=
  ⟨_, rfl, rfl, rfl, rfl, rfl, rfl, rfl, rfl, rfl, rfl⟩

section Jump
variable {op : Int} {m0 m1 : Digit} {taken : Word → Bool} {s : State} {a b : Word}

/-- A taken jump whose target is a legal `pc` goes there. -/
theorem jump_completes_of_taken (ha : readParam s.comp 0 m0 = .ok a) (hb : readParam s.comp 1 m1 = .ok b)
    (ht : taken a = true) (h0 : 0 ≤ b.toInt) :
    ∃ s', jump op m0 m1 taken s = .next s' ∧ s'.comp = { s.comp with pc := b.toInt.toNat } ∧
      s'.control = s.control ∧ SameSession s s' := by
  rw [jump_of_operands ha hb, if_pos ht, jumpTarget_ok h0, orRaise_ok]
  exact setPc_completes _ s

/-- A jump not taken advances; its target is not looked at beyond its resolution (R152, R153). -/
theorem jump_completes_of_not_taken (ha : readParam s.comp 0 m0 = .ok a)
    (hb : readParam s.comp 1 m1 = .ok b) (hn : taken a = false) (hpc : s.comp.pc + 3 ≤ amax) :
    ∃ s', jump op m0 m1 taken s = .next s' ∧ s'.comp = { s.comp with pc := s.comp.pc + 3 } ∧
      s'.control = s.control ∧ SameSession s s' := by
  rw [jump_of_operands ha hb, hn, if_neg Bool.false_ne_true, nextPc_ok hpc, orRaise_ok]
  exact setPc_completes _ s

/-- A taken jump whose target is below 0 (R152). -/
theorem jump_raises_of_negative_target (ha : readParam s.comp 0 m0 = .ok a)
    (hb : readParam s.comp 1 m1 = .ok b) (ht : taken a = true) (hneg : b.toInt < 0) :
    Raises (jump op m0 m1 taken s) op ⟨.negativeAddress, .value b.toInt⟩ s := by
  rw [jump_of_operands ha hb, if_pos ht]
  exact raises_orRaise (jumpTarget_error hneg)

end Jump

/-! ### JT and JF -/

/-- JF is taken on 0 (R151). -/
theorem not_isNonZero_eq_true {a : Word} (h : a.toInt = 0) : (!isNonZero a) = true := by
  rw [isNonZero_eq_false h, Bool.not_false]

theorem not_isNonZero_eq_false {a : Word} (h : a.toInt ≠ 0) : (!isNonZero a) = false := by
  rw [isNonZero_eq_true h, Bool.not_true]

/-- Settles O23: JT is the jump that `isNonZero` decides. -/
theorem jtJumpsIfTrue : Obligations.JtJumpsIfTrue := fun _ _ _ _ _ ha hb =>
  ⟨fun hne => jump_completes_of_taken ha hb (isNonZero_eq_true hne),
    fun hz => jump_completes_of_not_taken ha hb (isNonZero_eq_false hz)⟩

/-- Settles O24: JF is the jump that the negation of `isNonZero` decides. -/
theorem jfJumpsIfFalse : Obligations.JfJumpsIfFalse := fun _ _ _ _ _ ha hb =>
  ⟨fun hz => jump_completes_of_taken (taken := fun a => !isNonZero a) ha hb (not_isNonZero_eq_true hz),
    fun hne => jump_completes_of_not_taken (taken := fun a => !isNonZero a) ha hb (not_isNonZero_eq_false hne)⟩

/-- Settles O29: a taken jump below 0 raises; every other jump is one of O23 and O24, which give the whole next
Computer and so its `pc` and its fault record. -/
theorem jumpTargets : Obligations.JumpTargets := by
  intro m0 m1 s a b ha hb
  obtain ⟨hjt, hjtNot⟩ := jtJumpsIfTrue m0 m1 s a b ha hb
  obtain ⟨hjf, hjfNot⟩ := jfJumpsIfFalse m0 m1 s a b ha hb
  refine ⟨toInt_le_amax b, fun hne hneg => ?jtNegative, fun hz hneg => ?jfNegative, fun hne h0 => ?jtTaken,
    fun hz h0 => ?jfTaken, fun hz hpc => ?jtNotTaken, fun hne hpc => ?jfNotTaken⟩
  case jtNegative => exact jump_raises_of_negative_target ha hb (isNonZero_eq_true hne) hneg
  case jfNegative =>
    exact jump_raises_of_negative_target (taken := fun a => !isNonZero a) ha hb (not_isNonZero_eq_true hz) hneg
  case jtTaken =>
    obtain ⟨s', hs, hcomp, -⟩ := hjt hne h0
    exact ⟨s', hs, by rw [hcomp, Int.toNat_of_nonneg h0]⟩
  case jfTaken =>
    obtain ⟨s', hs, hcomp, -⟩ := hjf hz h0
    exact ⟨s', hs, by rw [hcomp, Int.toNat_of_nonneg h0]⟩
  case jtNotTaken =>
    obtain ⟨s', hs, hcomp, -⟩ := hjtNot hz hpc
    exact ⟨s', hs, by rw [hcomp]⟩
  case jfNotTaken =>
    obtain ⟨s', hs, hcomp, -⟩ := hjfNot hne hpc
    exact ⟨s', hs, by rw [hcomp]⟩

end Sys2Proof.Machine

/-! PROOFS of the family `44_compare.md`: what LT and EQ store, and the faults they raise. -/

namespace Sys2Proof.Machine

/-! ### The first defect of a four-word instruction

`FirstDefect` says the same of ADD, MUL, LT and EQ; the lemmas name LT and serve the other three as they stand. -/

/-- Resolution stops at the first parameter that has a defect (R120). -/
theorem readTwoTarget_of_firstDefect {c : Computer} {m0 m1 m2 : Digit} {e : Trap}
    (h : FirstDefect (.lt m0 m1 m2) c e) : readTwoTarget c m0 m1 m2 = .error e := by
  rcases h with ha | ⟨a, ha, hb⟩ | ⟨a, b, ha, hb, ht⟩
  · simp only [readTwoTarget, readTwo, ha]
  · simp only [readTwoTarget, readTwo, ha, hb]
  · exact readTwoTarget_of_target_error ha hb ht

/-- The parameters are resolved before the result `f` and the next `pc` are looked at. -/
theorem binary_raises_of_firstDefect {op : Int} {m0 m1 m2 : Digit} {f : Word → Word → Except Trap Word}
    {s : State} {e : Trap} (h : FirstDefect (.lt m0 m1 m2) s.comp e) : Raises (binary op m0 m1 m2 f s) op e s :=
  raises_orRaise (readTwoTarget_of_firstDefect h)

/-! ### LT and EQ

A comparison has a result for any two operands (R162), so that the check of the next `pc` follows the parameters. -/

theorem exec_lt (m0 m1 m2 : Digit) (s : State) :
    exec (.lt m0 m1 m2) s = binary 7 m0 m1 m2 (fun a b => .ok (lessThan a b)) s := rfl

theorem exec_eq (m0 m1 m2 : Digit) (s : State) :
    exec (.eq m0 m1 m2) s = binary 8 m0 m1 m2 (fun a b => .ok (equalTo a b)) s := rfl

/-- Settles O18: LT is the four-word instruction whose result is `lessThan`. -/
theorem ltStoresTheComparison : Obligations.LtStoresTheComparison := by
  intro m0 m1 m2 s
  rw [exec_lt]
  exact ⟨fun _ => binary_raises_of_firstDefect, fun a b _ ha hb ht =>
    ⟨binary_stores ha hb ht rfl (lessThan_toInt a b), binary_raises_at_pcEdge ha hb ht rfl⟩⟩

/-- Settles O19: EQ is the four-word instruction whose result is `equalTo`. -/
theorem eqStoresTheComparison : Obligations.EqStoresTheComparison := by
  intro m0 m1 m2 s
  rw [exec_eq]
  exact ⟨fun _ => binary_raises_of_firstDefect, fun a b _ ha hb ht =>
    ⟨binary_stores ha hb ht rfl (equalTo_toInt a b), binary_raises_at_pcEdge ha hb ht rfl⟩⟩

end Sys2Proof.Machine

/-! PROOFS of the family `45_relbase.md`: how ARB moves the relative base. -/

namespace Sys2Proof.Machine

/-- Settles O25: the operand is resolved in the state before the commit, a sum in range is the word that stands
for it, and the commit moves `pc` in the Computer that has the new base (R170, R183). -/
theorem arbAddsToTheRelativeBase : Obligations.ArbAddsToTheRelativeBase := by
  intro m0 s a ha hr hpc
  obtain ⟨s', hs, hcomp, hcontrol, hsame⟩ := setPc_completes (s.comp.pc + 2)
    { s with comp := { s.comp with rb := BitVec.ofInt 64 (s.comp.rb.toInt + a.toInt) } }
  refine ⟨s', ?completes, ?base, ?frame, hcontrol, hsame⟩
  case completes =>
    rw [exec, execArb_of_operand ha, inWord_ok hr, nextPc_ok hpc, orRaise_ok, orRaise_ok, hs]
  case base => rw [hcomp, toInt_ofInt hr]
  case frame => rw [hcomp]

end Sys2Proof.Machine

/-! PROOFS of the family `46_halt.md`: what HALT does, the frame of the two instructions that end a call for good,
and why a Computer that has finished stays as it is. -/

namespace Sys2Proof.Machine

/-! ### HALT and the illegal space -/

/-- HALT checks nothing: it answers the same way in every state (R175). -/
theorem exec_halt (s : State) :
    exec .halt s = .next (endCall (.halted (callOuts s)) { s with comp := { s.comp with halted := true } }) := rfl

/-- The illegal space checks nothing either: it always takes its fault (R251). -/
theorem exec_illegal (op : Int) (s : State) :
    exec (.illegal op) s = .next (raised op ⟨.invalidOpcode, .none⟩ s) := rfl

/-- Settles O26: the one state that HALT answers. -/
theorem haltSetsTheFlag : Obligations.HaltSetsTheFlag := fun s =>
  ⟨_, exec_halt s, rfl, rfl, (exec_effect (exec_halt s)).sameSession⟩

/-- Settles O38: the one state that each of the two answers differs from the old one in `halted` or in the fault
record, and in `control`. -/
theorem endingInstructionsFrame : Obligations.EndingInstructionsFrame := by
  intro i s s' hi h
  have hsame : SameSession s s' := (exec_effect h).sameSession
  rcases hi with rfl | hill
  · obtain rfl := Host.Outcome.next.inj ((exec_halt s).symm.trans h)
    exact ⟨⟨fun _ => rfl, rfl⟩, rfl, rfl, rfl, rfl, fun _ => rfl, fun hne => absurd rfl hne, hsame⟩
  · obtain ⟨op, rfl⟩ : ∃ op, i = .illegal op := ⟨_, Instr.eq_illegal_of_isIllegal hill⟩
    obtain rfl := Host.Outcome.next.inj ((exec_illegal op s).symm.trans h)
    exact ⟨⟨fun _ => rfl, rfl⟩, rfl, rfl, rfl, rfl, nofun, fun _ => rfl, hsame⟩

/-! ### A Computer that has finished -/

/-- A Computer that has halted or faulted has a result for every `run` call (R186, R187). -/
theorem exists_finished {c : Computer} (h : c.halted = true ∨ c.fault.isSome = true) :
    ∃ r, finished c = some r := by
  refine Option.ne_none_iff_exists'.1 fun hnone => ?_
  obtain ⟨hfault, hrunning⟩ := finished_eq_none.1 hnone
  simp [hfault, hrunning] at h

/-- A `run` call on a Computer that has finished drops its inputs (R186, R187). -/
theorem ring_startRun_of_finished {s : State} {r : RunResult} (inputs : List Word)
    (hf : finished s.comp = some r) : ring (startRun inputs s) = ring s := by
  rw [startRun_finished inputs hf, ring_endCall]

/-- While the Computer at the cursor has finished, a step that constructs nothing changes no Computer: no
instruction is executed, and a `run` call returns at once. -/
theorem step_ring_eq_of_finished {s s' : State} {r : RunResult} (hf : finished s.comp = some r)
    (hs : s.constructs = false) (h : step s = .next s') : ring s' = ring s := by
  cases step_move h with
  | finished | hostTakes | waits => rfl
  | engine s' hc hrun he => simp [hf] at hrun
  | schedulerTakes r net s' hc hn he => exact (endTurn_result he).ring_eq
  | schedulerCalls net inputs hc hn => exact ring_startRun_of_finished inputs hf
  | hostCalls c rest s' hc hn hq he =>
    cases hostCall_move he with
    | new => simp [constructs_of_new hc hn hq] at hs
    | network => simp [constructs_of_network hc hn hq] at hs
    | run inputs => exact ring_startRun_of_finished (s := { s with calls := rest }) inputs hf
    | isHalted | snapshot => rfl

/-- Settles O49: away from the cursor by O50, and at the cursor because a Computer that has finished executes
nothing. -/
theorem finishedComputersNeverChange : Obligations.FinishedComputersNeverChange := by
  intro s s' k c hs h hk hend
  by_cases hcur : k = cursor s
  · subst hcur
    obtain rfl : s.comp = c := by simpa using hk
    obtain ⟨r, hf⟩ := exists_finished hend
    rw [step_ring_eq_of_finished hf hs h, hk]
  · obtain ⟨-, hother⟩ := stepTouchesOnlyTheComputerAtTheCursor s s' hs h
    rw [hother k hcur, hk]

end Sys2Proof.Machine

/-! PROOFS of the family `50_computer_run.md`: what a step inside a `run` call does, how a call begins and what it
returns, why inputs still queued do not matter, and what the host reads without changing anything. -/

namespace Sys2Proof.Machine

/-! ### The engine's step -/

/-- Inside a `run` call, a Computer that has finished executes nothing: the call ends (R186, R187). -/
theorem step_of_quantum_finished {s : State} {r : RunResult} (hc : s.control = .quantum)
    (hf : finished s.comp = some r) : step s = .next (endCall r s) := by
  simp only [step, hc, engineStep, hf]

/-- Settles O40, by what `finished` says of the Computer. -/
theorem stepRunsTheDecodedInstruction : Obligations.StepRunsTheDecodedInstruction := fun _ hc =>
  ⟨fun hfault hh => step_of_quantum hc (finished_eq_none.2 ⟨hfault, hh⟩) rfl,
    fun hfault hh => step_of_quantum_finished hc (finished_halted hfault hh),
    fun _ hfault => step_of_quantum_finished hc (finished_fault hfault)⟩

/-- A check answers a next state where going on with its value does: its fault is a next state too. -/
theorem exists_orRaise_next {α : Type} {op : Int} {s : State} {r : Except Trap α}
    {k : α → Host.Outcome State Fault Refusal} (h : ∀ a, r = .ok a → ∃ s', k a = .next s') :
    ∃ s', orRaise op s r k = .next s' := by
  cases r with
  | error t => exact ⟨_, rfl⟩
  | ok a => exact h a rfl

/-- A store at an address that has resolved is within the normative `MEM_CAP` (R57). -/
theorem exists_store_next {s : State} {t n : Nat} (v : Word) (hcap : amax ≤ s.cfg.memCap) (ht : t ≤ amax) :
    ∃ s', store t v n s = .next s' :=
  ⟨_, store_ok (ht.trans hcap)⟩

theorem exists_binary_next {s : State} (op : Int) (m0 m1 m2 : Digit) (f : Word → Word → Except Trap Word)
    (hcap : amax ≤ s.cfg.memCap) : ∃ s', binary op m0 m1 m2 f s = .next s' :=
  exists_orRaise_next fun _ hr => exists_orRaise_next fun v _ => exists_orRaise_next fun _ _ =>
    exists_store_next v hcap (writeAddr_le (readTwoTarget_eq_ok.1 hr).2.2)

theorem exists_jump_next (op : Int) (m0 m1 : Digit) (taken : Word → Bool) (s : State) :
    ∃ s', jump op m0 m1 taken s = .next s' := by
  refine exists_orRaise_next fun r _ => ?_
  split
  · exact exists_orRaise_next fun _ _ => ⟨_, rfl⟩
  · exact exists_orRaise_next fun _ _ => ⟨_, rfl⟩

theorem exists_execInput_next {s : State} (m0 : Digit) (hcap : amax ≤ s.cfg.memCap) :
    ∃ s', execInput m0 s = .next s' := by
  unfold execInput
  split
  · exact ⟨_, rfl⟩
  · exact exists_orRaise_next fun _ ht => exists_orRaise_next fun _ _ =>
      exists_store_next _ hcap (writeAddr_le ht)

/-- Settles O34: every check answers a next state or goes on, and the one commit that can stop the machine, the
store, is given an address that has been checked against `AMAX`. -/
theorem everyInstructionAnswers : Obligations.EveryInstructionAnswers := by
  intro i s hcap
  cases i with
  | add m0 m1 m2 | mul m0 m1 m2 => exact exists_binary_next _ m0 m1 m2 _ hcap
  | lt m0 m1 m2 => exact exists_binary_next 7 m0 m1 m2 (fun a b => .ok (lessThan a b)) hcap
  | eq m0 m1 m2 => exact exists_binary_next 8 m0 m1 m2 (fun a b => .ok (equalTo a b)) hcap
  | jt m0 m1 => exact exists_jump_next 5 m0 m1 isNonZero s
  | jf m0 m1 => exact exists_jump_next 6 m0 m1 (fun a => !isNonZero a) s
  | input m0 => exact exists_execInput_next m0 hcap
  | output m0 => exact exists_orRaise_next fun _ _ => exists_orRaise_next fun _ _ => ⟨_, rfl⟩
  | arb m0 =>
    exact exists_orRaise_next fun _ _ => exists_orRaise_next fun _ _ => exists_orRaise_next fun _ _ => ⟨_, rfl⟩
  | halt => exact ⟨_, exec_halt s⟩
  | illegal op => exact ⟨_, exec_illegal op s⟩

/-! ### The start and the result of a `run` call -/

/-- Settles O41: the host's call is `startRun`, which sees of the Computer whether it has finished. -/
theorem runBeginsOrReturns : Obligations.RunBeginsOrReturns := by
  intro s inputs rest hc hn hq
  rw [step_of_run hc hn hq]
  refine ⟨fun f hfault => ?faulted, fun hfault hh => ?halted, fun hfault hh => ?begins⟩
  case faulted => exact congrArg _ (startRun_finished inputs (finished_fault hfault))
  case halted => exact congrArg _ (startRun_finished inputs (finished_halted hfault hh))
  case begins => exact congrArg _ (startRun_begins inputs (finished_eq_none.2 ⟨hfault, hh⟩))

/-- The log is what stood in it at the start of the call, then the outputs of the call (R188). -/
theorem take_append_callOuts (s : State) : s.comp.outLog.take s.callStart ++ callOuts s = s.comp.outLog :=
  List.take_append_drop _ _

/-- An instruction that ends the call without a fault leaves the log alone and returns the outputs of the
call. -/
theorem Effect.returns_callOuts {i : Instr} {s s' : State} {outs : List Word} (h : Effect i s s')
    (hc : s.control = .quantum)
    (hr : s'.control = .returned (.suspended outs) ∨ s'.control = .returned (.halted outs)) :
    s'.comp.outLog = s.comp.outLog ∧ outs = callOuts s := by
  cases h with
  | raised t => simp at hr
  | suspended | halted => simpa [eq_comm] using hr
  | binary | consumed | emitted | jumped | based => simp [hc] at hr

/-- Settles O42: the outputs of the call are what the log holds beyond its start. -/
theorem runReturnsItsOwnOutputs : Obligations.RunReturnsItsOwnOutputs := by
  intro s s' outs hc hf h hr
  have heff := exec_effect ((step_of_quantum hc hf rfl).symm.trans h)
  obtain ⟨hlog, rfl⟩ := heff.returns_callOuts hc hr
  rw [hlog, take_append_callOuts]

/-! ### What `run` calls have returned is the log -/

section Reported
variable (rs : List HostReply)
@[simp] theorem reported_created : reported (rs ++ [.created]) = [] := by simp [reported]
@[simp] theorem reported_suspended (outs : List Word) :
    reported (rs ++ [.ran (.suspended outs)]) = reported rs ++ outs := by simp [reported]
@[simp] theorem reported_halted (outs : List Word) :
    reported (rs ++ [.ran (.halted outs)]) = reported rs ++ outs := by simp [reported]
@[simp] theorem reported_isHalted (b : Bool) : reported (rs ++ [.isHalted b]) = reported rs := by
  simp [reported]
@[simp] theorem reported_memory (cells : List Word) : reported (rs ++ [.memory cells]) = reported rs := by
  simp [reported]
end Reported

section LogInv
variable {s : State}

/-- Nothing is claimed of a network. -/
theorem logInv_of_net {net : Network} (hnet : s.net = some net) : State.LogInv s := fun hn => by
  simp [hnet] at hn

theorem logInv_caller (hc : s.control = .caller) :
    State.LogInv s ↔ (s.net = none → s.comp.fault = none → reported s.replies = s.comp.outLog) := by
  simp [State.LogInv, hc]

theorem logInv_quantum (hc : s.control = .quantum) :
    State.LogInv s ↔ (s.net = none → finished s.comp = none ∧ s.callStart ≤ s.comp.outLog.length ∧
      reported s.replies = s.comp.outLog.take s.callStart) := by
  simp [State.LogInv, hc]

theorem logInv_fault {f : FaultRecord} (hc : s.control = .returned (.fault f)) :
    State.LogInv s ↔ (s.net = none → s.comp.fault = some f) := by
  simp [State.LogInv, hc]

theorem logInv_suspended {outs : List Word} (hc : s.control = .returned (.suspended outs)) :
    State.LogInv s ↔ (s.net = none → reported s.replies ++ outs = s.comp.outLog) := by
  simp [State.LogInv, hc]

theorem logInv_halted {outs : List Word} (hc : s.control = .returned (.halted outs)) :
    State.LogInv s ↔ (s.net = none → reported s.replies ++ outs = s.comp.outLog) := by
  simp [State.LogInv, hc]

end LogInv

/-- An instruction adds to the log only what the call will return; where the call ends without a fault it is
returned. -/
theorem Effect.logInv {i : Instr} {s s' : State} (he : Effect i s s') (hc : s.control = .quantum)
    (h : State.LogInv s) : State.LogInv s' := by
  rw [logInv_quantum hc] at h
  have hreturned (hn : s.net = none) : reported s.replies ++ callOuts s = s.comp.outLog := by
    obtain ⟨-, -, hlog⟩ := h hn
    rw [hlog, take_append_callOuts]
  cases he with
  | raised t => exact (logInv_fault rfl).2 fun _ => rfl
  | suspended m0 hi hq => exact (logInv_suspended rfl).2 hreturned
  | halted hi => exact (logInv_halted rfl).2 hreturned
  | emitted m0 a hi hpc =>
    refine Iff.mpr (logInv_quantum hc) fun hn => ?_
    obtain ⟨hf, hk, hlog⟩ := h hn
    exact ⟨hf, hk.trans (by simp), by rw [List.take_append_of_le_length hk, hlog]⟩
  | binary | consumed | jumped | based => exact Iff.mpr (logInv_quantum hc) h

/-- The host's `run` call begins where everything in the log has been returned; on a Computer that has halted
it returns nothing more. -/
theorem startRun_logInv {s : State} (inputs : List Word) (hc : s.control = .caller) (h : State.LogInv s) :
    State.LogInv (startRun inputs s) := by
  rw [logInv_caller hc] at h
  cases hf : finished s.comp with
  | some r =>
    rw [startRun_finished inputs hf]
    rcases finished_eq_some.1 hf with ⟨f, hfault, rfl⟩ | ⟨hfault, -, rfl⟩
    · exact (logInv_fault rfl).2 fun _ => hfault
    · exact (logInv_halted rfl).2 fun hn => by simpa using h hn hfault
  | none =>
    rw [startRun_begins inputs hf]
    refine (logInv_quantum rfl).2 fun hn => ⟨hf, le_rfl, ?_⟩
    simpa using h hn (finished_eq_none.1 hf).1

/-- The result of a `run` call completes what the host has been handed; a fault leaves it incomplete, and then
nothing is claimed (D7). -/
theorem answer_ran_logInv {s : State} {r : RunResult} (hc : s.control = .returned r) (h : State.LogInv s) :
    State.LogInv (answer (.ran r) s) := by
  refine (logInv_caller rfl).2 fun hn hfault => ?_
  cases r with
  | fault f => simp [(logInv_fault hc).1 h hn] at hfault
  | suspended outs => simpa using (logInv_suspended hc).1 h hn
  | halted outs => simpa using (logInv_halted hc).1 h hn

theorem HostMove.logInv {s s' : State} {c : HostCall} (hm : HostMove s c s') (hc : s.control = .caller)
    (h : State.LogInv s) : State.LogInv s' := by
  cases hm with
  | new image hl => exact (logInv_caller rfl).2 fun _ _ => reported_created s.replies
  | network image p ps mode hl => exact logInv_of_net rfl
  | run inputs hn => exact startRun_logInv inputs hc h
  | isHalted | snapshot => exact (logInv_caller rfl).2 (by simpa using (logInv_caller hc).1 h)

/-- Settles O47, by the cases of `Move`: a standalone Computer's log grows by instructions alone, and a call
returns what it has added. -/
theorem stepKeepsReportedOutputsTheLog : Obligations.StepKeepsReportedOutputsTheLog := by
  intro s s' h hstep
  cases step_move hstep with
  | finished r hc hf =>
    intro hn
    simp [((logInv_quantum hc).1 h hn).1] at hf
  | engine s' hc hf he => exact (exec_effect he).logInv hc h
  | hostTakes r hc hn => exact answer_ran_logInv hc h
  | schedulerTakes r net s' hc hn he =>
    cases endTurn_result he with
    | aborts | done => exact logInv_of_net rfl
    | passes v => exact logInv_of_net (advance_net _)
  | schedulerCalls net inputs hc hn =>
    exact logInv_of_net ((startRun_net inputs s).trans (activeNet_eq_some.1 hn).1)
  | waits hc hn hq => exact h
  | hostCalls c rest s' hc hn hq he => exact (hostCall_move he).logInv hc h

/-! ### Inputs queued behind -/

/-- An outcome with the next state changed by `f`; a stop stays as it is. -/
def mapNext (f : State → State) : Host.Outcome State Fault Refusal → Host.Outcome State Fault Refusal
  | .next s => .next (f s)
  | .fault r => .fault r
  | .refused r => .refused r

section WithInputs
variable (ys : List Word) (s : State)

/-! No check looks at the queue (R114, R118). -/

@[simp] theorem nextPc_withInputs (k : Nat) : nextPc (withInputs ys s).comp k = nextPc s.comp k := rfl
@[simp] theorem readParam_withInputs (i : Nat) (d : Digit) :
    readParam (withInputs ys s).comp i d = readParam s.comp i d := readParam_congr rfl rfl rfl i d
@[simp] theorem writeAddr_withInputs (i : Nat) (d : Digit) :
    writeAddr (withInputs ys s).comp i d = writeAddr s.comp i d := writeAddr_congr rfl rfl rfl i d
@[simp] theorem readTwo_withInputs (m0 m1 : Digit) :
    readTwo (withInputs ys s).comp m0 m1 = readTwo s.comp m0 m1 := by
  simp only [readTwo, readParam_withInputs]
@[simp] theorem readTwoTarget_withInputs (m0 m1 m2 : Digit) :
    readTwoTarget (withInputs ys s).comp m0 m1 m2 = readTwoTarget s.comp m0 m1 m2 := by
  simp only [readTwoTarget, readTwo_withInputs, writeAddr_withInputs]

/-- A check that goes on with more inputs queued as it does without them takes its fault so too. -/
theorem orRaise_withInputs {α : Type} (op : Int) (r : Except Trap α)
    {k k' : α → Host.Outcome State Fault Refusal} (h : ∀ a, k' a = mapNext (withInputs ys) (k a)) :
    orRaise op (withInputs ys s) r k' = mapNext (withInputs ys) (orRaise op s r k) := by
  cases r with
  | error t => rfl
  | ok a => exact h a

theorem store_withInputs (t : Nat) (v : Word) (n : Nat) :
    store t v n (withInputs ys s) = mapNext (withInputs ys) (store t v n s) := by
  by_cases hcap : t ≤ s.cfg.memCap
  · rw [store_ok hcap, store_ok (s := withInputs ys s) hcap]; rfl
  · have hcap := Nat.lt_of_not_le hcap
    rw [store, store, if_pos hcap]; exact if_pos hcap

theorem binary_withInputs (op : Int) (m0 m1 m2 : Digit) (f : Word → Word → Except Trap Word) :
    binary op m0 m1 m2 f (withInputs ys s) = mapNext (withInputs ys) (binary op m0 m1 m2 f s) := by
  simp only [binary, readTwoTarget_withInputs, nextPc_withInputs]
  exact orRaise_withInputs ys s op _ fun _ => orRaise_withInputs ys s op _ fun _ =>
    orRaise_withInputs ys s op _ fun _ => store_withInputs ys s _ _ _

theorem jump_withInputs (op : Int) (m0 m1 : Digit) (taken : Word → Bool) :
    jump op m0 m1 taken (withInputs ys s) = mapNext (withInputs ys) (jump op m0 m1 taken s) := by
  simp only [jump, readTwo_withInputs, nextPc_withInputs]
  refine orRaise_withInputs ys s op _ fun r => ?_
  split
  · exact orRaise_withInputs ys s op _ fun _ => rfl
  · exact orRaise_withInputs ys s op _ fun _ => rfl

/-- IN takes the oldest value, which is the same one with more queued behind it (R140). -/
theorem execInput_withInputs (m0 : Digit) (hq : s.comp.inq ≠ []) :
    execInput m0 (withInputs ys s) = mapNext (withInputs ys) (execInput m0 s) := by
  obtain ⟨v, rest, hv⟩ := List.exists_cons_of_ne_nil hq
  have hv' : (withInputs ys s).comp.inq = v :: (rest ++ ys) := congrArg (· ++ ys) hv
  simp only [execInput, hv, hv', writeAddr_withInputs, nextPc_withInputs]
  exact orRaise_withInputs ys s _ _ fun _ => orRaise_withInputs ys s _ _ fun _ =>
    store_withInputs ys { s with comp := { s.comp with inq := rest } } _ _ _

theorem execOutput_withInputs (m0 : Digit) :
    execOutput m0 (withInputs ys s) = mapNext (withInputs ys) (execOutput m0 s) := by
  simp only [execOutput, readParam_withInputs, nextPc_withInputs]
  exact orRaise_withInputs ys s _ _ fun _ => orRaise_withInputs ys s _ _ fun _ => rfl

theorem execArb_withInputs (m0 : Digit) :
    execArb m0 (withInputs ys s) = mapNext (withInputs ys) (execArb m0 s) := by
  simp only [execArb, readParam_withInputs, nextPc_withInputs]
  exact orRaise_withInputs ys s _ _ fun _ => orRaise_withInputs ys s _ _ fun _ =>
    orRaise_withInputs ys s _ _ fun _ => rfl

/-- Every instruction but a starved IN does the same with more inputs queued behind, which stay queued. -/
theorem exec_withInputs {i : Instr} (hq : (∃ m0, i = .input m0) → s.comp.inq ≠ []) :
    exec i (withInputs ys s) = mapNext (withInputs ys) (exec i s) := by
  cases i with
  | add m0 m1 m2 | mul m0 m1 m2 => exact binary_withInputs ys s _ m0 m1 m2 _
  | lt m0 m1 m2 => exact binary_withInputs ys s 7 m0 m1 m2 fun a b => .ok (lessThan a b)
  | eq m0 m1 m2 => exact binary_withInputs ys s 8 m0 m1 m2 fun a b => .ok (equalTo a b)
  | jt m0 m1 => exact jump_withInputs ys s 5 m0 m1 isNonZero
  | jf m0 m1 => exact jump_withInputs ys s 6 m0 m1 fun a => !isNonZero a
  | input m0 => exact execInput_withInputs ys s m0 (hq ⟨m0, rfl⟩)
  | output m0 => exact execOutput_withInputs ys s m0
  | arb m0 => exact execArb_withInputs ys s m0
  | halt => rfl
  | illegal op => rfl

end WithInputs

/-- A starved IN ends the call, so an instruction after which the call goes on is none (R142). -/
theorem inq_ne_nil_of_goes_on {i : Instr} {s s' : State} (h : exec i s = .next s') (hc : s'.control = .quantum)
    (hi : ∃ m0, i = .input m0) : s.comp.inq ≠ [] := by
  rintro hq
  obtain ⟨m0, rfl⟩ := hi
  obtain rfl := Host.Outcome.next.inj ((execInput_of_empty m0 hq).symm.trans h)
  simp at hc

/-- A step after which the call still goes on executed an instruction. -/
theorem exec_of_quantum_step {s s' : State} (hc : s.control = .quantum) (h : step s = .next s')
    (hc' : s'.control = .quantum) : finished s.comp = none ∧ exec (decode (fetch s.comp)) s = .next s' := by
  cases hf : finished s.comp with
  | none => exact ⟨rfl, (step_of_quantum hc hf rfl).symm.trans h⟩
  | some r =>
    obtain rfl := Host.Outcome.next.inj ((step_of_quantum_finished hc hf).symm.trans h)
    simp at hc'

/-- One step inside a call that goes on is the same step with more inputs queued behind (R189). -/
theorem step_withInputs {s s' : State} (ys : List Word) (hc : s.control = .quantum) (h : step s = .next s')
    (hc' : s'.control = .quantum) : step (withInputs ys s) = .next (withInputs ys s') := by
  obtain ⟨hf, he⟩ := exec_of_quantum_step hc h hc'
  calc step (withInputs ys s)
      = exec (decode (fetch s.comp)) (withInputs ys s) := step_of_quantum hc hf rfl
    _ = mapNext (withInputs ys) (exec (decode (fetch s.comp)) s) :=
        exec_withInputs ys s (inq_ne_nil_of_goes_on he hc')
    _ = .next (withInputs ys s') := by rw [he]; rfl

/-! ### A host with no call to make -/

/-- A standalone Computer whose host has no further call to make. -/
def NoMoreCalls (s : State) : Prop := s.net = none ∧ s.calls = []

/-- With no call to make the host only waits, so that no `run` call begins. -/
theorem NoMoreCalls.step {s s' : State} (h : NoMoreCalls s) (hs : step s = .next s') :
    NoMoreCalls s' ∧ (s'.control = .quantum → s.control = .quantum) := by
  obtain ⟨hnet, hcalls⟩ := h
  have hnone : activeNet s = none := activeNet_none_of_net hnet
  cases step_move hs with
  | finished r hc hf => exact ⟨⟨hnet, hcalls⟩, fun _ => hc⟩
  | engine s' hc hf he =>
    obtain ⟨-, -, -, hn, -, hq, -⟩ := (exec_effect he).sameSession
    exact ⟨⟨hn.trans hnet, hq.trans hcalls⟩, fun _ => hc⟩
  | hostTakes r hc hn => exact ⟨⟨hnet, hcalls⟩, nofun⟩
  | waits hc hn hq => exact ⟨⟨hnet, hcalls⟩, id⟩
  | schedulerTakes r net s' hc hn he => simp [hnone] at hn
  | schedulerCalls net inputs hc hn => simp [hnone] at hn
  | hostCalls c rest s' hc hn hq he => simp [hcalls] at hq

/-- A run that answers a next state takes its first step and then the rest. -/
theorem run_succ_next {n : Nat} {s t : State} (h : Host.Core.run Sys2Proof.core (n + 1) s = .next t) :
    ∃ s', step s = .next s' ∧ Host.Core.run Sys2Proof.core n s' = .next t := by
  simp only [Host.Core.run] at h
  split at h
  · rename_i s' hs
    exact ⟨s', hs, h⟩
  · cases h
  · cases h

theorem run_succ_of_step {n : Nat} {s s' : State} (h : step s = .next s') :
    Host.Core.run Sys2Proof.core (n + 1) s = Host.Core.run Sys2Proof.core n s' := by
  have h : Sys2Proof.core.step s = .next s' := h
  simp only [Host.Core.run, h]

/-- A call in progress at the end of a run has been in progress from its start on. -/
theorem NoMoreCalls.quantum_of_run {n : Nat} {s t : State} (h : NoMoreCalls s)
    (hrun : Host.Core.run Sys2Proof.core n s = .next t) (ht : t.control = .quantum) :
    s.control = .quantum := by
  induction n generalizing s with
  | zero =>
    obtain rfl := Host.Outcome.next.inj hrun
    exact ht
  | succ n ih =>
    obtain ⟨s', hs, hrun⟩ := run_succ_next hrun
    obtain ⟨h', hback⟩ := h.step hs
    exact hback (ih h' hrun)

/-- A run at whose end the call is still in progress is, step by step, the same run with more inputs queued
behind (R189). -/
theorem NoMoreCalls.run_withInputs {n : Nat} {s t : State} (ys : List Word) (h : NoMoreCalls s)
    (hrun : Host.Core.run Sys2Proof.core n s = .next t) (ht : t.control = .quantum) :
    Host.Core.run Sys2Proof.core n (withInputs ys s) = .next (withInputs ys t) := by
  induction n generalizing s with
  | zero =>
    obtain rfl := Host.Outcome.next.inj hrun
    rfl
  | succ n ih =>
    obtain ⟨s', hs, hrun⟩ := run_succ_next hrun
    obtain ⟨h', hback⟩ := h.step hs
    have hc' : s'.control = .quantum := h'.quantum_of_run hrun ht
    rw [run_succ_of_step (step_withInputs ys (hback hc') hs hc')]
    exact ih h' hrun

/-- Settles O43, by induction on the number of steps: each step of the call commutes with queueing more inputs
behind, and queueing them is what the start of a later call does to the Computer. -/
theorem laterInputsDoNotChangeAQuantum : Obligations.LaterInputsDoNotChangeAQuantum :=
  fun _ _ _ ys hnet hcalls _ hrun ht =>
    ⟨NoMoreCalls.run_withInputs ys ⟨hnet, hcalls⟩ hrun ht, fun hf => by rw [startRun_begins ys hf]; rfl⟩

/-! ### Inspection -/

/-- Where no call is in progress and no network runs, the host makes its next call (R194). -/
theorem step_of_hostCall {s : State} {c : HostCall} {rest : List HostCall} (hc : s.control = .caller)
    (hn : activeNet s = none) (hq : s.calls = c :: rest) : step s = hostCall c { s with calls := rest } := by
  simp only [step, hc, callerStep, hn, hostStep, hq]

theorem hostCall_isHalted {s : State} {k : Nat} {c : Computer} (hk : (ring s)[k]? = some c) :
    hostCall (.isHalted k) s = .next (answer (.isHalted c.halted) s) := by
  simp only [hostCall, hk]

theorem hostCall_snapshot {s : State} {k : Nat} {c : Computer} (hk : (ring s)[k]? = some c) :
    hostCall (.snapshot k) s = .next (answer (.memory (snapshot c)) s) := by
  simp only [hostCall, hk]

/-- An answer given at once is all that changes. -/
theorem answer_of_caller {s : State} (r : HostReply) (hc : s.control = .caller) :
    answer r s = { s with replies := s.replies ++ [r] } := by
  simp only [answer, hc]

theorem snapshot_length (c : Computer) : (snapshot c).length = c.memSize := by simp [snapshot]

/-- A snapshot lists cell `a` at position `a` (R193). -/
theorem snapshot_getElem? {c : Computer} {a : Nat} (ha : a < c.memSize) :
    (snapshot c)[a]? = some (Memory.read c.mem a) := by
  simp [snapshot, ha]

/-- Settles O44: both calls are answered at once, from the Computer at the named ring position. -/
theorem inspectionChangesNothing : Obligations.InspectionChangesNothing := by
  intro s k c rest hc hn hk
  refine ⟨fun hq => ?isHalted, fun hq => ⟨snapshot c, ?snapshot, snapshot_length c, fun _ => snapshot_getElem?⟩⟩
  case isHalted =>
    rw [step_of_hostCall hc hn hq, hostCall_isHalted (s := { s with calls := rest }) hk]
    exact congrArg _ (answer_of_caller _ hc)
  case snapshot =>
    rw [step_of_hostCall hc hn hq, hostCall_snapshot (s := { s with calls := rest }) hk]
    exact congrArg _ (answer_of_caller _ hc)

end Sys2Proof.Machine

/-! PROOFS of the family `55_amplifier_network.md`: how the host builds a network, the scheduler's call, what it does
with each result, and why a network that has ended stays as it is. -/

namespace Sys2Proof.Machine

/-! ### Construction -/

/-- An image that is a legal argument and can be backed is accepted (R57, R58). -/
theorem withImage_ok {image : List Word} {s : State} (built : State) (hl : image.length ≤ amax + 1)
    (hcap : image.length ≤ s.cfg.memCap + 1) : withImage image s built = .next (answer .created built) := by
  rw [withImage, if_neg (not_lt.2 hl), if_neg (not_lt.2 hcap)]

/-- A member of a fresh ring is in the reset state of the image, in feedback mode primed (R39, R214). -/
theorem newMember_freshWith (image : List Word) (mode : NetMode) (p : Word) :
    FreshWith (newMember image mode p) image (if mode = .feedback then [p] else []) := by
  cases mode with
  | pipeline => exact newComputer_freshWith image
  | feedback => exact ⟨rfl, rfl, rfl, rfl, rfl, rfl, rfl, Memory.read_ofImage image⟩

/-- The ring of a fresh network has a member for each phase setting, in order (R210). -/
theorem ring_newNetwork (image : List Word) (p : Word) (ps : List Word) (mode : NetMode) (s : State) :
    ring (newNetwork image p ps mode s) = (p :: ps).map (newMember image mode) := rfl

/-- Settles O52: the host's call is refused for want of a first phase setting, or builds the fresh ring. -/
theorem networkConstruction : Obligations.NetworkConstruction := by
  intro s image phases mode rest hc hn hq
  rw [step_of_hostCall hc hn hq]
  refine ⟨?empty, fun hne hl hcap => ?built⟩
  case empty =>
    rintro rfl
    rfl
  case built =>
    obtain ⟨p, ps, rfl⟩ := List.exists_cons_of_ne_nil hne
    have hring := ring_newNetwork image p ps mode { s with calls := rest }
    refine ⟨_, withImage_ok _ hl hcap, ?size, rfl, fun k q hk => ⟨newMember image mode q, ?member, ?fresh⟩, rfl,
      rfl, rfl⟩
    case size => rw [ringSize, ring_answer, hring, List.length_map]
    case member => rw [ring_answer, hring, List.getElem?_map, hk]; rfl
    case fresh => exact newMember_freshWith image mode q

/-! ### The scheduler's turn -/

/-- Where no call is in progress, the scheduler of a running network acts (R215). -/
theorem step_of_turn {s : State} {net : Network} (hc : s.control = .caller) (hn : activeNet s = some net) :
    step s = startTurn net s := by
  simp only [step, hc, callerStep, hn]

/-- A call that has ended in a running network is its scheduler's (R212, R215). -/
theorem step_of_result {s : State} {net : Network} {r : RunResult} (hc : s.control = .returned r)
    (hn : activeNet s = some net) : step s = endTurn net r s := by
  simp only [step, hc, takeResult, hn]

/-- In either mode the scheduler calls `run` with the values of that mode (R212, R215, R216). -/
theorem startTurn_eq_startRun {net : Network} {s : State} {inputs : List Word}
    (h : net.mode = .feedback ∧ inputs = [net.carried] ∨
      net.mode = .pipeline ∧ ∃ p, net.phase[cursor s]? = some p ∧ inputs = [p, net.carried]) :
    startTurn net s = .next (startRun inputs s) := by
  rcases h with ⟨hm, rfl⟩ | ⟨hm, p, hp, rfl⟩
  · simp only [startTurn, hm]
  · simp only [startTurn, hm, hp]

/-- Settles O53: the scheduler's call is `startRun`, which sees of the Computer whether it has finished. -/
theorem schedulerCallsRun : Obligations.SchedulerCallsRun := by
  intro s net inputs hc hnet hr hin
  rw [step_of_turn hc (activeNet_eq_some.2 ⟨hnet, hr⟩), startTurn_eq_startRun hin]
  refine ⟨fun hfault hh => ?begins, fun hfault hh => ?halted, fun f hfault => ?faulted⟩
  case begins => exact congrArg _ (startRun_begins inputs (finished_eq_none.2 ⟨hfault, hh⟩))
  case halted => exact congrArg _ (startRun_finished inputs (finished_halted hfault hh))
  case faulted => exact congrArg _ (startRun_finished inputs (finished_fault hfault))

/-! ### The rest of a turn -/

/-- The network after a turn that does not end it: `v` is carried to the next ring position (R215, R216). -/
def passOn (net : Network) (v : Word) (s : State) : State :=
  advance { s with net := some { net with carried := v }, control := .caller }

section PassOn
variable (net : Network) (v : Word) (s : State)
@[simp] theorem passOn_net : (passOn net v s).net = some { net with carried := v } := advance_net _
@[simp] theorem passOn_control : (passOn net v s).control = .caller := advance_control _
@[simp] theorem passOn_calls : (passOn net v s).calls = s.calls := advance_calls _
@[simp] theorem passOn_replies : (passOn net v s).replies = s.replies := advance_replies _
@[simp] theorem ring_passOn : ring (passOn net v s) = ring s := advance_ring _
theorem cursor_passOn : cursor (passOn net v s) = (cursor s + 1) % ringSize s := advance_cursor _
end PassOn

/-- A feedback turn of the last Computer, halted, ends the network (R217, R218). -/
theorem endFeedbackTurn_of_done {s : State} (net : Network) (outs : List Word)
    (h : cursor s + 1 = ringSize s ∧ s.comp.halted = true) :
    endFeedbackTurn net outs s =
      endNetwork { net with carried := outs.getLast?.getD net.carried } (.done (outs.getLast?.getD net.carried)) s := by
  rw [endFeedbackTurn, if_pos (by rw [(after_isEmpty_iff s).2 h.1, h.2]; rfl)]

/-- Any other feedback turn carries the signal on (R215). -/
theorem endFeedbackTurn_of_not_done {s : State} (net : Network) (outs : List Word)
    (h : ¬ (cursor s + 1 = ringSize s ∧ s.comp.halted = true)) :
    endFeedbackTurn net outs s = passOn net (outs.getLast?.getD net.carried) s := by
  rw [← after_isEmpty_iff, ← Bool.and_eq_true_iff] at h
  rw [endFeedbackTurn, if_neg h, passOn]

/-- In feedback mode a suspension and a halt are one to the scheduler (R215). -/
theorem endTurn_feedback {net : Network} {r : RunResult} {outs : List Word} (hm : net.mode = .feedback)
    (hr : r = .suspended outs ∨ r = .halted outs) (s : State) :
    endTurn net r s = .next (endFeedbackTurn net outs s) := by
  rcases hr with rfl | rfl <;> simp only [endTurn, hm]

/-- The carried signal after a feedback turn: the last value of the call, if there is one (R216). -/
theorem getLast?_getD_eq {outs : List Word} {old carried : Word} (hnil : outs = [] → carried = old)
    (hlast : ∀ v, outs.getLast? = some v → carried = v) : outs.getLast?.getD old = carried := by
  cases h : outs.getLast? with
  | none => exact (hnil (List.getLast?_eq_none_iff.1 h)).symm
  | some v => exact (hlast v h).symm

/-- Settles O54: the turn ends the network or passes the signal on. -/
theorem feedbackTurn : Obligations.FeedbackTurn := by
  intro s net outs carried hnet hr hm hc hnil hlast
  obtain ⟨r, hc, hres⟩ : ∃ r, s.control = .returned r ∧ (r = .suspended outs ∨ r = .halted outs) := by
    rcases hc with hc | hc
    · exact ⟨_, hc, .inl rfl⟩
    · exact ⟨_, hc, .inr rfl⟩
  rw [step_of_result hc (activeNet_eq_some.2 ⟨hnet, hr⟩), endTurn_feedback hm hres]
  by_cases hdone : cursor s + 1 = ringSize s ∧ s.comp.halted = true
  · rw [endFeedbackTurn_of_done net outs hdone, getLast?_getD_eq hnil hlast]
    exact ⟨_, rfl, rfl, rfl, rfl, fun _ => ⟨rfl, rfl⟩, fun hnot => absurd hdone hnot⟩
  · rw [endFeedbackTurn_of_not_done net outs hdone, getLast?_getD_eq hnil hlast]
    exact ⟨_, rfl, ring_passOn .., passOn_control .., passOn_calls .., fun h => absurd h hdone,
      fun _ => ⟨passOn_net .., cursor_passOn .., passOn_replies ..⟩⟩

/-- The stage of the last Computer ends a pipeline (R212). -/
theorem endPipelineStage_of_last {s : State} (net : Network) (v : Word) (h : cursor s + 1 = ringSize s) :
    endPipelineStage net v s = endNetwork { net with carried := v } (.done v) s := by
  rw [endPipelineStage, if_pos ((after_isEmpty_iff s).2 h)]

/-- Any other stage hands its output to the next (R212). -/
theorem endPipelineStage_of_not_last {s : State} (net : Network) (v : Word) (h : cursor s + 1 ≠ ringSize s) :
    endPipelineStage net v s = passOn net v s := by
  rw [endPipelineStage, if_neg (mt (after_isEmpty_iff s).1 h), passOn]

theorem endTurn_pipeline_halted {net : Network} (hm : net.mode = .pipeline) (v : Word) (s : State) :
    endTurn net (.halted [v]) s = .next (endPipelineStage net v s) := by
  simp only [endTurn, hm]

/-- A pipeline has no step for a result that is neither a sole output on halting nor a fault (R213). -/
theorem endTurn_pipeline_stuck {net : Network} {r : RunResult} (hm : net.mode = .pipeline)
    (hout : ∀ v, r ≠ .halted [v]) (hfault : ∀ f, r ≠ .fault f) (s : State) :
    endTurn net r s = .fault (.pipelineStuck (cursor s)) := by
  cases r with
  | fault f => exact absurd rfl (hfault f)
  | suspended outs => simp only [endTurn, hm]
  | halted outs =>
    match outs, hout with
    | [], _ => simp only [endTurn, hm]
    | [v], hout => exact absurd rfl (hout v)
    | _ :: _ :: _, _ => simp only [endTurn, hm]

/-- Settles O55: the stage ends the network, passes its output on, or has no step. -/
theorem pipelineStage : Obligations.PipelineStage := by
  intro s net r hnet hr hm hc
  rw [step_of_result hc (activeNet_eq_some.2 ⟨hnet, hr⟩)]
  refine ⟨?output, fun hout hfault => endTurn_pipeline_stuck hm hout hfault s⟩
  case output =>
    rintro v rfl
    rw [endTurn_pipeline_halted hm]
    by_cases hlast : cursor s + 1 = ringSize s
    · rw [endPipelineStage_of_last net v hlast]
      exact ⟨_, rfl, rfl, rfl, fun _ => ⟨rfl, rfl⟩, fun hlt => absurd hlast hlt.ne⟩
    · rw [endPipelineStage_of_not_last net v hlast]
      exact ⟨_, rfl, ring_passOn .., passOn_control .., fun h => absurd h hlast,
        fun hlt => ⟨passOn_net .., by rw [cursor_passOn, Nat.mod_eq_of_lt hlt], passOn_replies ..⟩⟩

/-! ### The end of a network -/

/-- A fault returned to the scheduler aborts the network, in both modes (R220). -/
theorem step_of_fault_result {s : State} {net : Network} {f : FaultRecord} (hnet : s.net = some net)
    (hr : net.status = .running) (hc : s.control = .returned (.fault f)) :
    step s = .next (endNetwork net (.aborted (cursor s) f) s) :=
  step_of_result hc (activeNet_eq_some.2 ⟨hnet, hr⟩)

/-- Settles O56: the abort ends the network where the cursor stands. -/
theorem faultAbortsTheNetwork : Obligations.FaultAbortsTheNetwork := fun _ _ _ hnet hr hc =>
  ⟨_, step_of_fault_result hnet hr hc, rfl, rfl, rfl, rfl, rfl⟩

section Ended
variable {s : State} {net : Network}

theorem activeNet_of_ended (hnet : s.net = some net) (hend : net.status ≠ .running) : activeNet s = none :=
  Option.eq_none_iff_forall_ne_some.2 fun n hn => by
    obtain ⟨hn, hr⟩ := activeNet_eq_some.1 hn
    obtain rfl := Option.some.inj (hnet.symm.trans hn)
    exact hend hr

/-- In an ended network no `run` call can be in progress, so control is with the caller (R194, R228). -/
theorem State.CallInv.control_of_ended (h : State.CallInv s) (hnet : s.net = some net)
    (hend : net.status ≠ .running) : s.control = .caller := by
  have hcall : ¬ State.callable s := by simp [State.callable, hnet, activeNet_of_ended hnet hend]
  cases hc : s.control with
  | caller => rfl
  | quantum => exact absurd ((callInv_quantum hc).1 h).1 hcall
  | returned r => exact absurd ((callInv_returned hc).1 h).1 hcall

end Ended

/-- Settles O57: with no call in progress and no network running, what is left of a step is the host's, which may
only inspect. -/
theorem endedNetworkStaysAsItIs : Obligations.EndedNetworkStaysAsItIs := by
  intro s s' net hinv hnet hend hs h
  have hcaller : s.control = .caller := hinv.control_of_ended hnet hend
  have hnone : activeNet s = none := activeNet_of_ended hnet hend
  cases step_move h with
  | finished r hc | engine s' hc | hostTakes r hc | schedulerTakes r net s' hc => simp [hcaller] at hc
  | schedulerCalls net inputs hc hn => simp [hnone] at hn
  | waits => exact ⟨rfl, hnet, hcaller⟩
  | hostCalls c rest s' hc hn hq he =>
    cases hostCall_move he with
    | new => simp [constructs_of_new hc hn hq] at hs
    | network => simp [constructs_of_network hc hn hq] at hs
    | run inputs hstandalone => simp [hnet] at hstandalone
    | isHalted | snapshot => exact ⟨rfl, hnet, rfl⟩

end Sys2Proof.Machine

/-! PROOFS of the family `60_exceptions.md`: which defect an instruction reports, what taking a fault changes, and
which kinds of fault each instruction can raise. -/

namespace Sys2Proof.Machine

/-! ### The fault an instruction takes -/

/-- Settles O27: the illegal space checks nothing before its fault. -/
theorem illegalRaisesInvalidOpcode : Obligations.IllegalRaisesInvalidOpcode := fun op s =>
  raises_raised op _ s

/-- Resolution of two operands stops at the first that has a defect (R120); `FirstDefect` says the same of JT and
JF. -/
theorem readTwo_of_firstDefect {c : Computer} {m0 m1 : Digit} {e : Trap} (h : FirstDefect (.jt m0 m1) c e) :
    readTwo c m0 m1 = .error e := by
  rcases h with ha | ⟨a, ha, hb⟩
  · simp only [readTwo, ha]
  · simp only [readTwo, ha, hb]

/-- Both operands of a jump are resolved before `taken` is looked at (R153). -/
theorem jump_raises_of_firstDefect {op : Int} {m0 m1 : Digit} {taken : Word → Bool} {s : State} {e : Trap}
    (h : FirstDefect (.jt m0 m1) s.comp e) : Raises (jump op m0 m1 taken s) op e s :=
  raises_orRaise (readTwo_of_firstDefect h)

/-- Settles O31: in every instruction the resolution of the parameters is the first check. -/
theorem firstDefectIsReported : Obligations.FirstDefectIsReported := by
  intro i s e h
  cases i with
  | add m0 m1 m2 | mul m0 m1 m2 => exact binary_raises_of_firstDefect h
  | lt m0 m1 m2 => exact binary_raises_of_firstDefect (f := fun a b => .ok (lessThan a b)) h
  | eq m0 m1 m2 => exact binary_raises_of_firstDefect (f := fun a b => .ok (equalTo a b)) h
  | jt m0 m1 => exact jump_raises_of_firstDefect h
  | jf m0 m1 => exact jump_raises_of_firstDefect (taken := fun a => !isNonZero a) h
  | input m0 =>
    obtain ⟨hq, ht⟩ := h
    exact execInput_raises_of_target_error hq ht
  | output m0 | arb m0 => exact raises_orRaise h
  | halt => exact h.elim
  | illegal op =>
    obtain rfl : e = ⟨.invalidOpcode, .none⟩ := h
    exact raises_raised op _ s

/-! ### Precise faults -/

/-- An instruction that sets the fault record has raised a fault and done nothing else (R183). -/
theorem Effect.eq_raised_of_fault {i : Instr} {s s' : State} {f : FaultRecord} (h : Effect i s s')
    (h0 : s.comp.fault = none) (hf : s'.comp.fault = some f) :
    ∃ t, s' = Machine.raised i.opcode t s ∧ f = faultRecord i.opcode t s := by
  cases h with
  | raised t => exact ⟨t, rfl, (Option.some.inj hf).symm⟩
  | binary | suspended | consumed | emitted | jumped | based | halted => simp [h0] at hf

/-- Settles O32: the taking of a fault is `raised`, and its result is the scheduler's to abort on. -/
theorem faultsArePrecise : Obligations.FaultsArePrecise := by
  intro i s s' f h h0 hf
  have heff := exec_effect h
  have hsame : SameSession s s' := heff.sameSession
  obtain ⟨t, rfl, rfl⟩ := heff.eq_raised_of_fault h0 hf
  exact ⟨rfl, rfl, rfl, rfl, hsame, fun _ hnet hr => ⟨_, step_of_fault_result hnet hr rfl, rfl, rfl⟩⟩

/-! ### The kinds of fault of each check -/

/-- The check fails with a fault of one of these kinds only. -/
def OnlyTraps {α : Type} (ks : List FaultKind) (r : Except Trap α) : Prop := ∀ t, r = .error t → t.kind ∈ ks

/-- What the resolution of a read parameter, a result, a jump target and the next `pc` can raise. -/
def operandKinds : List FaultKind := [.invalidMode, .negativeAddress, .overflow]

/-- What the resolution of a write parameter can raise besides (R253). -/
def targetKinds : List FaultKind := .invalidWriteMode :: operandKinds

section OnlyTraps
variable {α : Type} {ks : List FaultKind}

@[simp] theorem onlyTraps_ok (a : α) : OnlyTraps ks (.ok a) := nofun

@[simp] theorem onlyTraps_error {t : Trap} : OnlyTraps ks (.error t : Except Trap α) ↔ t.kind ∈ ks := by
  simp [OnlyTraps]

/-- A write parameter can raise all that an operand can. -/
theorem OnlyTraps.target {r : Except Trap α} (h : OnlyTraps operandKinds r) : OnlyTraps targetKinds r :=
  fun t ht => List.mem_cons_of_mem _ (h t ht)

theorem checkAddr_onlyTraps (ea : Int) : OnlyTraps operandKinds (checkAddr ea) := by
  unfold checkAddr
  split
  · simp [operandKinds]
  · split <;> simp [operandKinds]

theorem memRead_onlyTraps (c : Computer) (a : Int) : OnlyTraps operandKinds (memRead c a) := by
  unfold memRead
  split
  · rename_i t ht
    exact onlyTraps_error.2 (checkAddr_onlyTraps a t ht)
  · exact onlyTraps_ok _

theorem paramWord_onlyTraps (c : Computer) (i : Nat) : OnlyTraps operandKinds (paramWord c i) :=
  memRead_onlyTraps c _

theorem nextPc_onlyTraps (c : Computer) (k : Nat) : OnlyTraps operandKinds (nextPc c k) := by
  unfold nextPc
  split <;> simp [operandKinds]

theorem inWord_onlyTraps (v : Int) : OnlyTraps operandKinds (inWord v) := by
  unfold inWord
  split <;> simp [operandKinds]

theorem jumpTarget_onlyTraps (b : Word) : OnlyTraps operandKinds (jumpTarget b) := by
  unfold jumpTarget
  split <;> simp [operandKinds]

theorem readParam_onlyTraps (c : Computer) (i : Nat) (d : Digit) : OnlyTraps operandKinds (readParam c i d) := by
  unfold readParam
  split
  · simp [operandKinds]
  · split
    · rename_i t ht
      exact onlyTraps_error.2 (paramWord_onlyTraps c i t ht)
    · split
      · exact onlyTraps_ok _
      · exact memRead_onlyTraps c _
      · exact memRead_onlyTraps c _

theorem writeAddr_onlyTraps (c : Computer) (i : Nat) (d : Digit) : OnlyTraps targetKinds (writeAddr c i d) := by
  unfold writeAddr
  split
  · simp [targetKinds, operandKinds]
  · simp [targetKinds]
  all_goals
    split
    · rename_i t ht
      exact onlyTraps_error.2 ((paramWord_onlyTraps c i).target t ht)
    · exact (checkAddr_onlyTraps _).target

theorem readTwo_onlyTraps (c : Computer) (m0 m1 : Digit) : OnlyTraps operandKinds (readTwo c m0 m1) := by
  unfold readTwo
  split
  · rename_i t ht
    exact onlyTraps_error.2 (readParam_onlyTraps c 0 m0 t ht)
  · split
    · rename_i t ht
      exact onlyTraps_error.2 (readParam_onlyTraps c 1 m1 t ht)
    · exact onlyTraps_ok _

theorem readTwoTarget_onlyTraps (c : Computer) (m0 m1 m2 : Digit) :
    OnlyTraps targetKinds (readTwoTarget c m0 m1 m2) := by
  unfold readTwoTarget
  split
  · rename_i t ht
    exact onlyTraps_error.2 ((readTwo_onlyTraps c m0 m1).target t ht)
  · split
    · rename_i t ht
      exact onlyTraps_error.2 (writeAddr_onlyTraps c 2 m2 t ht)
    · exact onlyTraps_ok _

end OnlyTraps

/-! ### The kinds of fault of each instruction -/

/-- A fault recorded in the next state is of one of these kinds. -/
def OnlyRaises (ks : List FaultKind) (o : Host.Outcome State Fault Refusal) : Prop :=
  ∀ s' f, o = .next s' → s'.comp.fault = some f → f.kind ∈ ks

section OnlyRaises
variable {ks : List FaultKind} {s : State}

/-- A next state with no fault recorded has raised none. -/
theorem onlyRaises_of_no_fault (h : s.comp.fault = none) : OnlyRaises ks (.next s) := by
  rintro s' f hs hf
  obtain rfl := Host.Outcome.next.inj hs
  simp [h] at hf

/-- A check adds the kinds it fails with to those of what follows it. -/
theorem onlyRaises_orRaise {α : Type} {op : Int} {r : Except Trap α} {k : α → Host.Outcome State Fault Refusal}
    (hr : OnlyTraps ks r) (hk : ∀ a, OnlyRaises ks (k a)) : OnlyRaises ks (orRaise op s r k) := by
  rintro s' f hs hf
  rcases orRaise_next hs with ⟨t, ht, rfl⟩ | ⟨a, -, ha⟩
  · obtain rfl := Option.some.inj hf
    exact hr t ht
  · exact hk a s' f ha hf

theorem setPc_onlyRaises (n : Nat) (h : s.comp.fault = none) : OnlyRaises ks (setPc n s) :=
  onlyRaises_of_no_fault h

theorem store_onlyRaises (t : Nat) (v : Word) (n : Nat) (h : s.comp.fault = none) :
    OnlyRaises ks (store t v n s) := by
  rintro s' f hs hf
  obtain ⟨-, rfl⟩ := store_next hs
  simp [h] at hf

theorem binary_onlyRaises {f : Word → Word → Except Trap Word} (op : Int) (m0 m1 m2 : Digit)
    (hf : ∀ a b, OnlyTraps operandKinds (f a b)) (h : s.comp.fault = none) :
    OnlyRaises targetKinds (binary op m0 m1 m2 f s) :=
  onlyRaises_orRaise (readTwoTarget_onlyTraps _ m0 m1 m2) fun r => onlyRaises_orRaise (hf r.1 r.2.1).target fun v =>
    onlyRaises_orRaise (nextPc_onlyTraps _ 4).target fun n => store_onlyRaises r.2.2 v n h

theorem jump_onlyRaises (op : Int) (m0 m1 : Digit) (taken : Word → Bool) (h : s.comp.fault = none) :
    OnlyRaises operandKinds (jump op m0 m1 taken s) := by
  refine onlyRaises_orRaise (readTwo_onlyTraps _ m0 m1) fun r => ?_
  split
  · exact onlyRaises_orRaise (jumpTarget_onlyTraps r.2) fun n => setPc_onlyRaises n h
  · exact onlyRaises_orRaise (nextPc_onlyTraps _ 3) fun n => setPc_onlyRaises n h

theorem execInput_onlyRaises (m0 : Digit) (h : s.comp.fault = none) : OnlyRaises targetKinds (execInput m0 s) := by
  unfold execInput
  split
  · exact onlyRaises_of_no_fault h
  · exact onlyRaises_orRaise (writeAddr_onlyTraps _ 0 m0) fun t =>
      onlyRaises_orRaise (nextPc_onlyTraps _ 2).target fun n => store_onlyRaises t _ n h

theorem execOutput_onlyRaises (m0 : Digit) (h : s.comp.fault = none) :
    OnlyRaises operandKinds (execOutput m0 s) :=
  onlyRaises_orRaise (readParam_onlyTraps _ 0 m0) fun _ => onlyRaises_orRaise (nextPc_onlyTraps _ 2) fun n =>
    setPc_onlyRaises n h

theorem execArb_onlyRaises (m0 : Digit) (h : s.comp.fault = none) : OnlyRaises operandKinds (execArb m0 s) :=
  onlyRaises_orRaise (readParam_onlyTraps _ 0 m0) fun _ => onlyRaises_orRaise (inWord_onlyTraps _) fun _ =>
    onlyRaises_orRaise (nextPc_onlyTraps _ 2) fun n => setPc_onlyRaises n h

end OnlyRaises

/-- The rows of the table of R264: the kinds of fault an instruction can raise. -/
def faultKinds : Instr → List FaultKind
  | .add _ _ _ | .mul _ _ _ | .lt _ _ _ | .eq _ _ _ | .input _ => targetKinds
  | .output _ | .jt _ _ | .jf _ _ | .arb _ => operandKinds
  | .halt => []
  | .illegal _ => [.invalidOpcode]

/-- Every instruction keeps to its row of R264. -/
theorem exec_onlyRaises {s : State} (i : Instr) (h : s.comp.fault = none) :
    OnlyRaises (faultKinds i) (exec i s) := by
  cases i with
  | add m0 m1 m2 => exact binary_onlyRaises 1 m0 m1 m2 (fun _ _ => inWord_onlyTraps _) h
  | mul m0 m1 m2 => exact binary_onlyRaises 2 m0 m1 m2 (fun _ _ => inWord_onlyTraps _) h
  | lt m0 m1 m2 => rw [exec_lt]; exact binary_onlyRaises 7 m0 m1 m2 (fun _ _ => onlyTraps_ok _) h
  | eq m0 m1 m2 => rw [exec_eq]; exact binary_onlyRaises 8 m0 m1 m2 (fun _ _ => onlyTraps_ok _) h
  | input m0 => exact execInput_onlyRaises m0 h
  | output m0 => exact execOutput_onlyRaises m0 h
  | jt m0 m1 => exact jump_onlyRaises 5 m0 m1 isNonZero h
  | jf m0 m1 => exact jump_onlyRaises 6 m0 m1 (fun a => !isNonZero a) h
  | arb m0 => exact execArb_onlyRaises m0 h
  | halt => exact onlyRaises_of_no_fault h
  | illegal op =>
    rintro s' f hs hf
    obtain rfl := Host.Outcome.next.inj ((exec_illegal op s).symm.trans hs)
    obtain rfl := Option.some.inj hf
    exact List.mem_singleton.2 rfl

/-! The table of R264 read by column. -/

theorem invalidOpcode_mem_faultKinds {i : Instr} : .invalidOpcode ∈ faultKinds i ↔ i.isIllegal = true := by
  cases i <;> simp [faultKinds, targetKinds, operandKinds, Instr.isIllegal]

theorem faultKinds_of_isIllegal {i : Instr} (h : i.isIllegal = true) : faultKinds i = [.invalidOpcode] := by
  rw [Instr.eq_illegal_of_isIllegal h, faultKinds]

theorem invalidWriteMode_mem_faultKinds {i : Instr} :
    .invalidWriteMode ∈ faultKinds i ↔ Role.write ∈ i.roles := by
  cases i <;> simp [faultKinds, targetKinds, operandKinds, Instr.roles]

theorem invalidMode_mem_faultKinds {i : Instr} : .invalidMode ∈ faultKinds i ↔ i.roles ≠ [] := by
  cases i <;> simp [faultKinds, targetKinds, operandKinds, Instr.roles]

/-- Settles O33: the kind recorded stands in the instruction's row of R264, HALT's row is empty, and a starved IN
records nothing. -/
theorem faultKindsByInstruction : Obligations.FaultKindsByInstruction := by
  intro i s s' f h h0 hf
  have hkind : f.kind ∈ faultKinds i := exec_onlyRaises i h0 s' f h hf
  refine ⟨⟨fun hk => invalidOpcode_mem_faultKinds.1 (hk ▸ hkind), fun hi => ?illegal⟩, ?halt, ?input,
    fun hk => invalidWriteMode_mem_faultKinds.1 (hk ▸ hkind), fun hk => invalidMode_mem_faultKinds.1 (hk ▸ hkind)⟩
  case illegal => exact List.mem_singleton.1 (faultKinds_of_isIllegal hi ▸ hkind)
  case halt =>
    rintro rfl
    exact absurd hkind List.not_mem_nil
  case input =>
    rintro m0 rfl hq
    obtain rfl := Host.Outcome.next.inj ((execInput_of_empty m0 hq).symm.trans h)
    simp [h0] at hf

end Sys2Proof.Machine

/-! PROOFS of the family `30_encoding.md`, continued: words written out by hand. -/

namespace Sys2Proof

/-- Settles O6, word by word. -/
theorem sampleWordsDecode : Obligations.SampleWordsDecode :=
  ⟨by decide, by decide, by decide, by decide, by decide, by decide, by decide, by decide, by decide, by decide,
    by decide, by decide, by decide, by decide, by decide, by decide⟩

end Sys2Proof
